-- ==== Sys2Proof/Word.lean ====
section
/-! DEFINITION. The word (00_scope.md R6): a mathematical integer in `[WMIN, WMAX]`. The spec has no bit view of a word (R6,
R11) and no bytes (20_memory.md R57), so a word is an `Int`, and every value below that the spec calls a word is typed `Int`
(`omega` reads no synonym of it). That every stored word lies in the range is an invariant of the machine (Safety.lean),
kept because every computed value is range-checked. -/

namespace Sys2Proof

/-- `WORD_BITS` (R6, decision D2): the spec fixes 64. -/
def wordBits : Nat := 64

/-- `WMIN = -2^(WORD_BITS-1)` (R6), written out. -/
abbrev wMin : Int := -9223372036854775808

/-- `WMAX = 2^(WORD_BITS-1) - 1` (R6), written out. -/
abbrev wMax : Int := 9223372036854775807

end Sys2Proof
end

