-- ==== Sys2Proof/Config.lean ====
section
/-! DEFINITION. What is fixed for the life of a machine besides the word width (Word.lean): the two things the constructor
chooses, the memory policy (00_scope.md R7) and the program length (R8). The spec leaves no value open
(93_implementation_defined.md section 1), so there is no free value here. -/

namespace Sys2Proof

/-- `POLICY` (R7): the two policies of the memory arbiter. -/
inductive Policy where
  | bounded
  | unbounded
deriving DecidableEq, Repr

/-- The configuration of one machine (10_state.md R22): chosen by the constructor and written by no rule. -/
structure Config where
  /-- `POLICY` (R7). -/
  policy : Policy
  /-- `L`, the length of the program given to the constructor (R8). -/
  len : Nat
deriving DecidableEq, Repr

end Sys2Proof
end

