-- ==== Sys2Proof/Syntax.lean ====
section
/-! DEFINITION. The decoded instruction word (30_encoding.md R80, R81): the opcode as a constructor, and the three mode
digits. Parameter words are not part of it: each is read from memory when its operand is resolved (20_memory.md R59,
30_encoding.md R89, R90, R96), so a missing parameter word faults in the spec's order (log entry 9). -/

namespace Sys2Proof

/-- A mode digit (R81, R87): 0, 1 and 2 have a meaning; 3 to 9 decode, and fault only where a parameter that the opcode
uses is resolved with one (R84, R91). -/
inductive Mode where
  | position
  | immediate
  | relative
  | undefined (digit : Nat)
deriving DecidableEq, Repr

/-- One constructor per row of the opcode table (R94), each with the mode digits `m1 m2 m3` of its instruction word. The
digits of parameters the opcode does not have are kept, so that decoding loses nothing (R98), and are ignored by the
meanings (R93). -/
inductive Instr where
  /-- ADD, opcode 1 (R160). -/
  | add (m1 m2 m3 : Mode)
  /-- MUL, opcode 2 (R161). -/
  | mul (m1 m2 m3 : Mode)
  /-- IN, opcode 3 (R170); `in` is a Lean keyword. -/
  | inp (m1 m2 m3 : Mode)
  /-- OUT, opcode 4 (R171). -/
  | out (m1 m2 m3 : Mode)
  /-- JNZ, opcode 5 (R180). -/
  | jnz (m1 m2 m3 : Mode)
  /-- JZ, opcode 6 (R181). -/
  | jz (m1 m2 m3 : Mode)
  /-- LT, opcode 7 (R190). -/
  | lt (m1 m2 m3 : Mode)
  /-- EQ, opcode 8 (R191). -/
  | eq (m1 m2 m3 : Mode)
  /-- ARB, opcode 9 (R200). -/
  | arb (m1 m2 m3 : Mode)
  /-- HLT, opcode 99 (R210). -/
  | hlt (m1 m2 m3 : Mode)
deriving DecidableEq, Repr

end Sys2Proof
end

