-- ==== Sys2Proof/WellFormed.lean ====
section
/-! DEFINITION. Which terms of `Instr` stand for an instruction word (30_encoding.md R81, R82): those whose three mode
fields are each one decimal digit. An undefined mode digit is 3 to 9; 0, 1 and 2 have their own constructors. -/

namespace Sys2Proof

/-- The field is one decimal digit. -/
def Mode.wellFormed : Mode → Bool
  | .position => true
  | .immediate => true
  | .relative => true
  | .undefined d => decide (3 ≤ d ∧ d ≤ 9)

/-- The three mode fields, in the order `m1, m2, m3`. -/
def Instr.modes : Instr → Mode × Mode × Mode
  | .add m1 m2 m3 => (m1, m2, m3)
  | .mul m1 m2 m3 => (m1, m2, m3)
  | .inp m1 m2 m3 => (m1, m2, m3)
  | .out m1 m2 m3 => (m1, m2, m3)
  | .jnz m1 m2 m3 => (m1, m2, m3)
  | .jz m1 m2 m3 => (m1, m2, m3)
  | .lt m1 m2 m3 => (m1, m2, m3)
  | .eq m1 m2 m3 => (m1, m2, m3)
  | .arb m1 m2 m3 => (m1, m2, m3)
  | .hlt m1 m2 m3 => (m1, m2, m3)

/-- The instruction is the decoding of some canonical word (R82). An illegal mode on a used parameter is well-formed: such
a word decodes, and faults when it executes (R84, R91, R92). -/
def Instr.wellFormed (i : Instr) : Bool :=
  i.modes.1.wellFormed && i.modes.2.1.wellFormed && i.modes.2.2.wellFormed

end Sys2Proof
end

