-- ==== Sys2Proof/Decode.lean ====
section
/-! DEFINITION. The decoder (30_encoding.md R81 to R84, R94, R101), total on every integer and rejecting by name; the
opcode table's lengths and roles (R85, R86, R96); the encoder (R98); and the two maps from the host's bit numbering to
words (log entry 10). -/

namespace Sys2Proof

/-- `dig(w, i)` (00_scope.md R11): decimal digit `i` of a non-negative integer, digit 0 the least significant. -/
def dig (w i : Nat) : Nat := w / 10 ^ i % 10

/-- Why a word is no instruction: it is not canonical (R82), or its opcode is outside the table (R94). -/
inductive DecodeError where
  | noncanonical
  | undefinedOpcode (op : Nat)
deriving DecidableEq, Repr

/-- The four fields of a canonical instruction word (R81). -/
structure Fields where
  op : Nat
  m1 : Nat
  m2 : Nat
  m3 : Nat
deriving DecidableEq, Repr

/-- The purely syntactic decoder of R81: `none` is the result `(noncanonical)` of R82. -/
def decodeFields (w : Int) : Option Fields :=
  if 0 ≤ w ∧ w ≤ 99999 then
    some ⟨w.toNat % 100, dig w.toNat 2, dig w.toNat 3, dig w.toNat 4⟩
  else none

/-- The re-encoding of R98: `op + 100*m1 + 1000*m2 + 10000*m3`. -/
def encodeFields (f : Fields) : Int :=
  ((f.op + 100 * f.m1 + 1000 * f.m2 + 10000 * f.m3 : Nat) : Int)

/-- The mode named by a digit (R87, R88, R91). -/
def Mode.ofDigit : Nat → Mode
  | 0 => .position
  | 1 => .immediate
  | 2 => .relative
  | d => .undefined d

/-- The digit that names a mode. -/
def Mode.digit : Mode → Nat
  | .position => 0
  | .immediate => 1
  | .relative => 2
  | .undefined d => d

/-- The opcode map (R94): complete, every other `op` names nothing. -/
def instrOfFields (f : Fields) : Option Instr :=
  let m1 := Mode.ofDigit f.m1
  let m2 := Mode.ofDigit f.m2
  let m3 := Mode.ofDigit f.m3
  match f.op with
  | 1 => some (.add m1 m2 m3)
  | 2 => some (.mul m1 m2 m3)
  | 3 => some (.inp m1 m2 m3)
  | 4 => some (.out m1 m2 m3)
  | 5 => some (.jnz m1 m2 m3)
  | 6 => some (.jz m1 m2 m3)
  | 7 => some (.lt m1 m2 m3)
  | 8 => some (.eq m1 m2 m3)
  | 9 => some (.arb m1 m2 m3)
  | 99 => some (.hlt m1 m2 m3)
  | _ => none

/-- Decode and validate one instruction word, in the order of 40_engine_cycle.md R124: canonical first, then the opcode.
The mode digits are not validated here (30_encoding.md R84). -/
def decode (w : Int) : Except DecodeError Instr :=
  match decodeFields w with
  | none => .error .noncanonical
  | some f =>
    match instrOfFields f with
    | none => .error (.undefinedOpcode f.op)
    | some i => .ok i

/-- The two-digit opcode (R94). -/
def Instr.opcode : Instr → Nat
  | .add _ _ _ => 1
  | .mul _ _ _ => 2
  | .inp _ _ _ => 3
  | .out _ _ _ => 4
  | .jnz _ _ _ => 5
  | .jz _ _ _ => 6
  | .lt _ _ _ => 7
  | .eq _ _ _ => 8
  | .arb _ _ _ => 9
  | .hlt _ _ _ => 99

/-- The role of a parameter (R85): a read operand or a write target. -/
inductive Role where
  | read
  | write
deriving DecidableEq, Repr

/-- The roles of an opcode's parameters, in order (R86). -/
def Instr.roles : Instr → List Role
  | .add _ _ _ => [.read, .read, .write]
  | .mul _ _ _ => [.read, .read, .write]
  | .inp _ _ _ => [.write]
  | .out _ _ _ => [.read]
  | .jnz _ _ _ => [.read, .read]
  | .jz _ _ _ => [.read, .read]
  | .lt _ _ _ => [.read, .read, .write]
  | .eq _ _ _ => [.read, .read, .write]
  | .arb _ _ _ => [.read]
  | .hlt _ _ _ => []

/-- The length in words is `1 + nparams(opcode)` (R80). -/
def Instr.length (i : Instr) : Nat := 1 + i.roles.length

/-- The instruction word of an instruction (R85, R99): `op + 100*m1 + 1000*m2 + 10000*m3`. -/
def encode (i : Instr) : Int :=
  encodeFields ⟨i.opcode, i.modes.1.digit, i.modes.2.1.digit, i.modes.2.2.digit⟩

/-- The longest instruction has 4 words (00_scope.md R9). -/
def longestInstr : Nat := 4

/-- The word whose 64-bit two's complement pattern is `n mod 2^64`. The spec gives a word no bits (00_scope.md R6); this
map only serves the host's bit numbering (log entry 10, DESIGN CHOICE). -/
def wordOfBits (n : Nat) : Int :=
  let m := n % 2 ^ wordBits
  if m < 2 ^ (wordBits - 1) then (m : Int) else (m : Int) - ((2 ^ wordBits : Nat) : Int)

/-- Word `k` of an instruction whose `nbits` bits are `w`, bit 0 the least significant bit of the first word; every bit at
or above `nbits` is 0 (log entry 10). -/
def tableWord (nbits w k : Nat) : Int :=
  wordOfBits (w % 2 ^ nbits / 2 ^ (wordBits * k))

/-- The instruction the decoder reads from an instruction whose bits are `w`: the decoder reads the first word only
(R81, R96). -/
def decodeTableWord (nbits w : Nat) : Option Instr :=
  match decode (tableWord nbits w 0) with
  | .ok i => some i
  | .error _ => none

end Sys2Proof
end

