-- ==== Sys2Proof/Machine/State.lean ====
section
/-! DEFINITION. The machine state: the record of 10_state.md R22, with the configuration the constructor fixes, as plain
data; the state after reset (70_reset_and_hazards.md R262); and the reasons a step or a host operation can stop. -/

namespace Sys2Proof.Machine

/-- `status` (10_state.md R27). -/
inductive Status where
  | running
  | waitingForInput
  | halted
  | faulted
  | atBreakpoint
deriving DecidableEq, Repr

/-- The kinds of a fault record (60_exceptions.md R220). -/
inductive FaultKind where
  | addressFault
  | unknownOpcodeFault
  | rangeFault
deriving DecidableEq, Repr

/-- The reasons of an UnknownOpcodeFault (60_exceptions.md R222). -/
inductive Reason where
  | opcode
  | mode
  | noncanonical
deriving DecidableEq, Repr

/-- The fault record `(kind, pc, addr, reason)` (10_state.md R31, 60_exceptions.md R224). -/
structure FaultRecord where
  kind : FaultKind
  /-- The `pc` of the cycle that faulted. -/
  pc : Int
  /-- The offending address, for AddressFault only. -/
  addr : Option Int
  /-- The reason, for UnknownOpcodeFault only. -/
  reason : Option Reason
deriving DecidableEq, Repr

/-- Memory as words by address, in one canonical form (`Memory.wf`, Ops.lean): addresses strictly rising, and no entry
equal to what an unlisted address reads as. The cells are words, because the machine has no bytes (20_memory.md R57, log
entry 1). -/
abbrev Memory := List (Nat × Int)

/-- The machine state (10_state.md R22). -/
structure State where
  /-- `POLICY` and `L`: configuration, never written (R22, log entry 2). -/
  cfg : Config
  /-- `mem` (R34). -/
  mem : Memory
  /-- `pc` (R23). -/
  pc : Int
  /-- `rb` (R26). -/
  rb : Int
  /-- `status` (R27); the breakpoint latch is the test `status = atBreakpoint` (R30). -/
  status : Status
  /-- `inq` (R32), the head the oldest. -/
  inq : List Int
  /-- `last_out` (R33). -/
  lastOut : Option Int
  /-- `outlog` (R33), the oldest first. -/
  outlog : List Int
  /-- `bps` (R29): a finite set of integers, kept strictly rising so that equal sets are equal data (log entry 11). -/
  bps : List Int
  /-- `cycles` (R28). -/
  cycles : Nat
  /-- `fault` (R31). -/
  fault : Option FaultRecord
  /-- `snap` (R35). -/
  snap : Memory
deriving DecidableEq, Repr

/-- The stops of a host call that are no state of the spec's machine. The spec's own faults are taken: they are next
states with `status = faulted` (40_engine_cycle.md R130, log entry 6), so no cycle and no step answers with one of these. -/
inductive Fault where
  /-- Raised by `runToStop` and `provideInputAndRun` only: the call `run(∞)` has not returned within the fuel given
  (40_engine_cycle.md R143, log entry 7). Safe: the model stops where the hardware goes on. -/
  | fuelExhausted
deriving DecidableEq, Repr

/-- Refusals: no meaning, or a host call that breaks a precondition. -/
inductive Refusal where
  /-- Raised by an arm of `exec` whose instruction has no meaning yet. Safe. No arm raises it. -/
  | notModelled (mnemonic : String)
  /-- Raised by `construct`: a program word or an initial input value is outside `[WMIN, WMAX]` (70_reset_and_hazards.md
  R261: "A model refuses a construction or host operation that breaks a precondition"). Safe. -/
  | constructionOutOfRange
  /-- Raised by `pushInput` and `provideInputAndRun`: the value is outside `[WMIN, WMAX]` (R261). Safe. -/
  | inputOutOfRange
deriving DecidableEq, Repr

/-- The state right after construction with the empty program, no input and the policy `Unbounded`: every field as
70_reset_and_hazards.md R262 says. The policy is the model's choice, since the spec gives no default (D6; log entry 3,
DESIGN CHOICE). A machine with a program is `construct program input policy` (HostOps.lean; log entry 4). -/
def State.reset : State :=
  { cfg := { policy := .unbounded, len := 0 }
    mem := []
    pc := 0
    rb := 0
    status := .running
    inq := []
    lastOut := none
    outlog := []
    bps := []
    cycles := 0
    fault := none
    snap := [] }

end Sys2Proof.Machine
end

