-- ==== Sys2Proof/Machine/Ops.lean ====
section
/-! DEFINITION. The shared operations: the range check (00_scope.md R6, R12), the memory arbiter (20_memory.md R51 to
R55), the effect record (40_engine_cycle.md R125), the next pc (R127), the commit (R128), taking a fault (R130), and the
breakpoint set (R139). -/

namespace Sys2Proof.Machine

/-- `InRange(v)` (00_scope.md R12). -/
abbrev InRange (v : Int) : Prop := wMin ≤ v ∧ v ≤ wMax

/-! ### Memory as data -/

/-- What an unlisted address reads as: 0, "addresses default to 0 until written" (20_memory.md R53). Under `Bounded` it
stands for a stored word 0 of the fixed-length memory (log entry 12). -/
def unlistedWord : Int := 0

/-- `mem(a)`: the stored word, and 0 at an address that lists none (20_memory.md R53, R55). -/
def Memory.read : Memory → Nat → Int
  | [], _ => unlistedWord
  | (k, w) :: rest, a => if a < k then unlistedWord else if a = k then w else Memory.read rest a

/-- `mem(a) <- v` (20_memory.md R55), keeping the canonical form: writing the word an unlisted address reads as removes
the entry. -/
def Memory.write : Memory → Nat → Int → Memory
  | [], a, v => if v = unlistedWord then [] else [(a, v)]
  | (k, w) :: rest, a, v =>
    if a < k then (if v = unlistedWord then (k, w) :: rest else (a, v) :: (k, w) :: rest)
    else if a = k then (if v = unlistedWord then rest else (a, v) :: rest)
    else (k, w) :: Memory.write rest a v

/-- Every address listed is at least `lo`, addresses rise strictly, and no entry holds the unlisted word. -/
def Memory.wfFrom : Nat → Memory → Bool
  | _, [] => true
  | lo, (k, w) :: rest => decide (lo ≤ k) && decide (w ≠ unlistedWord) && Memory.wfFrom (k + 1) rest

/-- The canonical form of a memory. -/
def Memory.wf (m : Memory) : Bool := Memory.wfFrom 0 m

/-- The memory that holds `words` from address `a` on and nothing else (70_reset_and_hazards.md R262). -/
def Memory.ofWords : Nat → List Int → Memory
  | _, [] => []
  | a, w :: rest => if w = unlistedWord then Memory.ofWords (a + 1) rest else (a, w) :: Memory.ofWords (a + 1) rest

/-! ### Raising a fault -/

/-- The record of `raise AddressFault(pc, a)` (00_scope.md R12, 60_exceptions.md R221). -/
def addressFault (pc a : Int) : FaultRecord :=
  { kind := .addressFault, pc := pc, addr := some a, reason := none }

/-- The record of `raise UnknownOpcodeFault(pc, reason)` (60_exceptions.md R222). -/
def unknownOpcodeFault (pc : Int) (r : Reason) : FaultRecord :=
  { kind := .unknownOpcodeFault, pc := pc, addr := none, reason := some r }

/-- The record of `raise RangeFault(pc)` (60_exceptions.md R223). -/
def rangeFault (pc : Int) : FaultRecord :=
  { kind := .rangeFault, pc := pc, addr := none, reason := none }

/-- The code of a fault kind (60_exceptions.md R220, decision D23). -/
def FaultKind.code : FaultKind → Nat
  | .addressFault => 1
  | .unknownOpcodeFault => 2
  | .rangeFault => 3

/-- `Chk(v)` (00_scope.md R12): the value itself, or `RangeFault(pc)`. -/
def chk (s : State) (v : Int) : Except FaultRecord Int :=
  if InRange v then .ok v else .error (rangeFault s.pc)

/-- `Legal(a)` (00_scope.md R12, 20_memory.md R51). -/
abbrev Legal (c : Config) (a : Int) : Prop := 0 ≤ a ∧ (c.policy = .unbounded ∨ a < c.len)

/-- `CheckAddr(a)` (00_scope.md R12): the address itself, or `AddressFault(pc, a)`. -/
def checkAddr (s : State) (a : Int) : Except FaultRecord Int :=
  if Legal s.cfg a then .ok a else .error (addressFault s.pc a)

/-- `MemRead(a, 1)` (20_memory.md R54, R55). -/
def memRead (s : State) (a : Int) : Except FaultRecord Int :=
  if Legal s.cfg a then .ok (s.mem.read a.toNat) else .error (addressFault s.pc a)

/-! ### Effects and their commit -/

/-- The next pc an instruction asks for (40_engine_cycle.md R125): a delta, or an explicit jump target. -/
inductive Next where
  | delta (d : Nat)
  | jump (t : Int)
deriving DecidableEq, Repr

/-- The effect record `E` (40_engine_cycle.md R125). -/
structure Effect where
  /-- `NONE` or `(t, v)`: validated target address, word. -/
  write : Option (Int × Int) := none
  /-- Remove the head of `inq`. -/
  pop : Bool := false
  /-- `NONE` or the value for the output buffer. -/
  emit : Option Int := none
  /-- `NONE` or the new relative base. -/
  newRb : Option Int := none
  /-- `NONE`, HALTED or WAITING_FOR_INPUT. -/
  newStatus : Option Status := none
  /-- The next pc. -/
  next : Next
deriving DecidableEq, Repr

/-- The next pc (40_engine_cycle.md R127): `Chk(pc + d)`, or the jump target. -/
def nextPc (s : State) : Next → Except FaultRecord Int
  | .delta d => chk s (s.pc + d)
  | .jump t => .ok t

/-- `emit(v)` (42_io.md R173): record the value as the last output and append it to the log. -/
def emitOutput (v : Int) (s : State) : State :=
  { s with lastOut := some v, outlog := s.outlog ++ [v] }

/-- The commit (40_engine_cycle.md R128): the effects of `E`, then the pc and the cycle counter. -/
def commit (s : State) (e : Effect) (npc : Int) : State :=
  { s with
    mem := (match e.write with | some (t, v) => s.mem.write t.toNat v | none => s.mem)
    inq := (if e.pop then s.inq.tail else s.inq)
    lastOut := (match e.emit with | some v => (emitOutput v s).lastOut | none => s.lastOut)
    outlog := (match e.emit with | some v => (emitOutput v s).outlog | none => s.outlog)
    rb := (match e.newRb with | some r => r | none => s.rb)
    status := (match e.newStatus with | some st => st | none => s.status)
    pc := npc
    cycles := s.cycles + 1 }

/-- Taking a fault (40_engine_cycle.md R130, 60_exceptions.md R228): the one operation every fault goes through. There is
no return from it (60_exceptions.md R229). -/
def takeFault (s : State) (f : FaultRecord) : State :=
  { s with status := .faulted, fault := some f }

/-- The end of a cycle after evaluation (40_engine_cycle.md R125 to R130): a fault raised by the evaluation, or by the next
pc, is taken and nothing else changes; otherwise the effect is committed. -/
def finish (s : State) (r : Except FaultRecord Effect) : Host.Outcome State Fault Refusal :=
  match r with
  | .error f => .next (takeFault s f)
  | .ok e =>
    match nextPc s e.next with
    | .error f => .next (takeFault s f)
    | .ok npc => .next (commit s e npc)

/-! ### The breakpoint set -/

/-- `bps ∪ {a}` on strictly rising lists (40_engine_cycle.md R139). -/
def bpsInsert (a : Int) : List Int → List Int
  | [] => [a]
  | b :: rest => if a < b then a :: b :: rest else if a = b then b :: rest else b :: bpsInsert a rest

/-- `bps \ {a}` (40_engine_cycle.md R139). -/
def bpsErase (a : Int) : List Int → List Int
  | [] => []
  | b :: rest => if a = b then bpsErase a rest else b :: bpsErase a rest

/-- The breakpoint list rises strictly. -/
def bpsWf (l : List Int) : Bool := decide (l.Pairwise (· < ·))

end Sys2Proof.Machine
end

