-- ==== Sys2Proof/Machine/Operands.lean ====
section
/-! DEFINITION. The address translator (30_encoding.md R87 to R93): read operands and write targets in every mode, with
the checks in the spec's order. -/

namespace Sys2Proof.Machine

/-- The raw parameter word `k` (30_encoding.md R89, R90): `MemRead(Chk(pc + k), 1)`. -/
def rawParam (s : State) (k : Nat) : Except FaultRecord Int := do
  let a ← chk s (s.pc + k)
  memRead s a

/-- The address of a relative parameter (30_encoding.md R89, R90): `Chk(raw + rb)`. -/
def relativeAddr (s : State) (raw : Int) : Except FaultRecord Int :=
  chk s (raw + s.rb)

/-- `ReadOperand(k, m)` (30_encoding.md R89). -/
def readOperand (s : State) (k : Nat) (m : Mode) : Except FaultRecord Int :=
  match m with
  | .undefined _ => .error (unknownOpcodeFault s.pc .mode)
  | .immediate => rawParam s k
  | .position => do
    let raw ← rawParam s k
    memRead s raw
  | .relative => do
    let raw ← rawParam s k
    let a ← relativeAddr s raw
    memRead s a

/-- `WriteAddress(k, m)` (30_encoding.md R90): the address is validated when it is formed. -/
def writeAddress (s : State) (k : Nat) (m : Mode) : Except FaultRecord Int :=
  match m with
  | .undefined _ => .error (unknownOpcodeFault s.pc .mode)
  | .immediate => .error (unknownOpcodeFault s.pc .mode)
  | .position => do
    let raw ← rawParam s k
    checkAddr s raw
  | .relative => do
    let raw ← rawParam s k
    let t ← relativeAddr s raw
    checkAddr s t

end Sys2Proof.Machine
end

