-- ==== Sys2Proof/Machine/Arithmetic.lean ====
section
/-! DEFINITION. ADD and MUL (41_arithmetic.md R160 to R162): exact on integers, then range-checked. -/

namespace Sys2Proof.Machine

/-- The evaluation common to the instructions of format F4 (30_encoding.md R85, R86): two read operands, then the write
target, then the result (40_engine_cycle.md R126), written with delta 4. -/
def evalBinary (m1 m2 m3 : Mode) (result : Int → Int → Except FaultRecord Int) (s : State) :
    Except FaultRecord Effect := do
  let a ← readOperand s 1 m1
  let b ← readOperand s 2 m2
  let t ← writeAddress s 3 m3
  let v ← result a b
  return { write := some (t, v), next := .delta 4 }

/-- ADD, opcode 1 (R160): "dst = a + b; delta 4". -/
def execAdd (m1 m2 m3 : Mode) (s : State) : Host.Outcome State Fault Refusal :=
  finish s (evalBinary m1 m2 m3 (fun a b => chk s (a + b)) s)

/-- MUL, opcode 2 (R161): "dst = a * b; delta 4". -/
def execMul (m1 m2 m3 : Mode) (s : State) : Host.Outcome State Fault Refusal :=
  finish s (evalBinary m1 m2 m3 (fun a b => chk s (a * b)) s)

end Sys2Proof.Machine
end

