-- ==== Sys2Proof/Machine/Flags.lean ====
section
/-! DEFINITION. The machine has no flags or condition codes (10_state.md R21). What stands in their place: the comparison
results 0 and 1 that LT and EQ write into memory (44_compare.md), and the zero tests of the jumps (43_branch.md). -/

namespace Sys2Proof.Machine

/-- The word a comparison writes: 1 or 0 (44_compare.md R190, R191). -/
def truthWord (b : Bool) : Int := if b then 1 else 0

/-- LT's test (R190): signed, strict. -/
def isLess (a b : Int) : Bool := decide (a < b)

/-- EQ's test (R191). -/
def isEqual (a b : Int) : Bool := decide (a = b)

/-- The test of the conditional jumps (43_branch.md R180, R181). -/
def isZero (a : Int) : Bool := decide (a = 0)

end Sys2Proof.Machine
end

