-- ==== Sys2Proof/Machine/Branch.lean ====
section
/-! DEFINITION. JNZ and JZ (43_branch.md R180 to R182): conditional jumps to an absolute target. -/

namespace Sys2Proof.Machine

/-- The evaluation common to the jumps (R180, R181): both operands are resolved whether or not the jump is taken, and a
taken jump to a negative target raises AddressFault at the jump. -/
def evalJump (m1 m2 : Mode) (taken : Int → Bool) (s : State) : Except FaultRecord Effect := do
  let a ← readOperand s 1 m1
  let b ← readOperand s 2 m2
  if taken a then
    if b < 0 then .error (addressFault s.pc b) else return { next := .jump b }
  else return { next := .delta 3 }

/-- JNZ, opcode 5 (R180): "if a ≠ 0: pc = b; else delta 3". -/
def execJnz (m1 m2 : Mode) (s : State) : Host.Outcome State Fault Refusal :=
  finish s (evalJump m1 m2 (fun a => !isZero a) s)

/-- JZ, opcode 6 (R181): "if a == 0: pc = b; else delta 3". -/
def execJz (m1 m2 : Mode) (s : State) : Host.Outcome State Fault Refusal :=
  finish s (evalJump m1 m2 isZero s)

end Sys2Proof.Machine
end

