-- ==== Sys2Proof/Machine/Compare.lean ====
section
/-! DEFINITION. LT and EQ (44_compare.md R190, R191): the result 0 or 1 goes to memory. -/

namespace Sys2Proof.Machine

/-- LT, opcode 7 (R190): "dst = 1 if a < b else 0; delta 4". -/
def execLt (m1 m2 m3 : Mode) (s : State) : Host.Outcome State Fault Refusal :=
  finish s (evalBinary m1 m2 m3 (fun a b => .ok (truthWord (isLess a b))) s)

/-- EQ, opcode 8 (R191): "dst = 1 if a == b else 0; delta 4". -/
def execEq (m1 m2 m3 : Mode) (s : State) : Host.Outcome State Fault Refusal :=
  finish s (evalBinary m1 m2 m3 (fun a b => .ok (truthWord (isEqual a b))) s)

end Sys2Proof.Machine
end

