-- ==== Sys2Proof/Machine/Halt.lean ====
section
/-! DEFINITION. HLT (46_halt_and_illegal.md R210). The undefined opcodes of R211 are no instructions: the engine faults on
them (Engine.lean). -/

namespace Sys2Proof.Machine

/-- HLT, opcode 99 (R210): "status = HALTED; delta 0". -/
def execHlt (s : State) : Host.Outcome State Fault Refusal :=
  finish s (.ok { newStatus := some .halted, next := .delta 0 })

end Sys2Proof.Machine
end

