-- ==== Sys2Proof/Machine/InputOutput.lean ====
section
/-! DEFINITION. IN and OUT (42_io.md R170 to R173). -/

namespace Sys2Proof.Machine

/-- `consume_input()` (R172): the evaluation looks at the head of the queue, or finds none; the commit pops. -/
def consumeInput (s : State) : Option Int := s.inq.head?

/-- The evaluation of IN (R170): the target is resolved and validated before the queue is looked at. -/
def evalIn (m1 : Mode) (s : State) : Except FaultRecord Effect := do
  let t ← writeAddress s 1 m1
  match consumeInput s with
  | none => return { newStatus := some .waitingForInput, next := .delta 0 }
  | some x => return { write := some (t, x), pop := true, next := .delta 2 }

/-- IN, opcode 3 (R170): "dst = next input; if none available, suspend (WAITING_FOR_INPUT) and retry this same instruction
later; delta 2 on success, 0 on suspend". -/
def execIn (m1 : Mode) (s : State) : Host.Outcome State Fault Refusal :=
  finish s (evalIn m1 s)

/-- The evaluation of OUT (R171). -/
def evalOut (m1 : Mode) (s : State) : Except FaultRecord Effect := do
  let a ← readOperand s 1 m1
  return { emit := some a, next := .delta 2 }

/-- OUT, opcode 4 (R171): "emit(a); delta 2". -/
def execOut (m1 : Mode) (s : State) : Host.Outcome State Fault Refusal :=
  finish s (evalOut m1 s)

end Sys2Proof.Machine
end

