-- ==== Sys2Proof/Machine/RelativeBase.lean ====
section
/-! DEFINITION. ARB (45_relbase.md R200, R201). -/

namespace Sys2Proof.Machine

/-- The evaluation of ARB (R200): a relative operand uses the old `rb`. -/
def evalArb (m1 : Mode) (s : State) : Except FaultRecord Effect := do
  let a ← readOperand s 1 m1
  let r ← chk s (s.rb + a)
  return { newRb := some r, next := .delta 2 }

/-- ARB, opcode 9 (R200): "relative_base += a; delta 2". -/
def execArb (m1 : Mode) (s : State) : Host.Outcome State Fault Refusal :=
  finish s (evalArb m1 s)

end Sys2Proof.Machine
end

