-- ==== Sys2Proof/Machine/Dispatch.lean ====
section
/-! DEFINITION. Dispatch: one arm per instruction of the opcode table (30_encoding.md R94). The mode digits of parameters
the opcode does not have are ignored (R93). -/

namespace Sys2Proof.Machine

def exec (i : Instr) (s : State) : Host.Outcome State Fault Refusal :=
  match i with
  | .add m1 m2 m3 => Sys2Proof.Machine.execAdd m1 m2 m3 s
  | .mul m1 m2 m3 => Sys2Proof.Machine.execMul m1 m2 m3 s
  | .inp m1 _ _ => Sys2Proof.Machine.execIn m1 s
  | .out m1 _ _ => Sys2Proof.Machine.execOut m1 s
  | .jnz m1 m2 _ => Sys2Proof.Machine.execJnz m1 m2 s
  | .jz m1 m2 _ => Sys2Proof.Machine.execJz m1 m2 s
  | .lt m1 m2 m3 => Sys2Proof.Machine.execLt m1 m2 m3 s
  | .eq m1 m2 m3 => Sys2Proof.Machine.execEq m1 m2 m3 s
  | .arb m1 _ _ => Sys2Proof.Machine.execArb m1 s
  | .hlt _ _ _ => Sys2Proof.Machine.execHlt s

end Sys2Proof.Machine
end

