-- ==== Sys2Proof/Machine/Engine.lean ====
section
/-! DEFINITION. The engine cycle (40_engine_cycle.md R120 to R131): breakpoint check, latch clear, fetch, decode and
validate, execute. -/

namespace Sys2Proof.Machine

/-- The fetch (R123): `MemRead(pc, 1)`. -/
def fetch (s : State) : Except FaultRecord Int := memRead s s.pc

/-- The fault reason of a rejected word (R124). -/
def decodeReason : DecodeError → Reason
  | .noncanonical => .noncanonical
  | .undefinedOpcode _ => .opcode

/-- Step 3 of a cycle (R123 to R128): fetch, decode and validate, then execute. A fault of the fetch or of the decoding is
taken like any other (R130). -/
def fetchExecute (s : State) : Host.Outcome State Fault Refusal :=
  match fetch s with
  | .error f => .next (takeFault s f)
  | .ok w =>
    match decode w with
    | .error e => .next (takeFault s (unknownOpcodeFault s.pc (decodeReason e)))
    | .ok i => exec i s

/-- The test of step 1 (R121). -/
abbrev BreakpointHit (s : State) : Prop := s.pc ∈ s.bps ∧ s.status ≠ .atBreakpoint

/-- Step 2 (R122): clear the latch. -/
def clearLatch (s : State) : State :=
  if s.status = .atBreakpoint then { s with status := .running } else s

/-- One cycle (R120 to R130). It runs only from RUNNING or AT_BREAKPOINT (R131): `run` sees to that. -/
def cycle (s : State) : Host.Outcome State Fault Refusal :=
  if BreakpointHit s then .next { s with status := .atBreakpoint } else fetchExecute (clearLatch s)

/-! ### Placing an instruction where the next step fetches (for the host's table check, log entry 4) -/

/-- The configuration under which the addresses below `n` exist: under `Bounded` the length is raised where needed. -/
def configHolding (n : Nat) (c : Config) : Config :=
  match c.policy with
  | .unbounded => c
  | .bounded => { c with len := max c.len n }

/-- The words written from address `a` on. -/
def writeWords (m : Memory) (a : Nat) : List Int → Memory
  | [] => m
  | w :: rest => writeWords (m.write a w) (a + 1) rest

/-- `s` with the words placed at `pc`, the addresses they need existing, and the machine ready to execute there: no
breakpoint at `pc`, status RUNNING. -/
def placeInstruction (ws : List Int) (s : State) : State :=
  { s with
    cfg := configHolding (s.pc.toNat + ws.length) s.cfg
    mem := writeWords s.mem s.pc.toNat ws
    bps := bpsErase s.pc s.bps
    status := .running }

end Sys2Proof.Machine
end

