-- ==== Sys2Proof/Machine/HostOps.lean ====
section
/-! DEFINITION. The host interface (40_engine_cycle.md R132 to R140, 60_exceptions.md R240 to R242, 70_reset_and_hazards.md
R260 to R265): construction, run control, input, breakpoints, snapshots, and what the host observes. Each operation is one
atomic transaction on the state (00_scope.md R5). -/

namespace Sys2Proof.Machine

/-! ### Construction -/

/-- Every value is a word (70_reset_and_hazards.md R261). -/
abbrev AllWords (l : List Int) : Prop := ∀ v ∈ l, InRange v

/-- `Machine(program, initial_input, memory_policy)` (70_reset_and_hazards.md R260 to R262). -/
def construct (program input : List Int) (policy : Policy) : Host.Outcome State Fault Refusal :=
  if AllWords program ∧ AllWords input then
    .next
      { cfg := { policy := policy, len := program.length }
        mem := Memory.ofWords 0 program
        pc := 0
        rb := 0
        status := .running
        inq := input
        lastOut := none
        outlog := []
        bps := []
        cycles := 0
        fault := none
        snap := Memory.ofWords 0 program }
  else .refused .constructionOutOfRange

/-! ### Run control -/

/-- The state a `run` call starts cycling from, or `none` where the call returns with no change (R132, R133): on a terminal
machine, and in WAITING_FOR_INPUT with an empty queue. -/
def resume (s : State) : Option State :=
  match s.status with
  | .halted => none
  | .faulted => none
  | .waitingForInput => if s.inq = [] then none else some { s with status := .running }
  | .running => some s
  | .atBreakpoint => some s

/-- The loop of R132 with `k` cycles of budget left. -/
def runLoop : Nat → State → Host.Outcome State Fault Refusal
  | 0, s => .next s
  | k + 1, s =>
    match cycle s with
    | .next t => if t.status = .running then runLoop k t else .next t
    | .fault f => .fault f
    | .refused r => .refused r

/-- `run(n)` (R132). -/
def run (n : Nat) (s : State) : Host.Outcome State Fault Refusal :=
  if n = 0 then .next s
  else
    match resume s with
    | none => .next s
    | some t => runLoop n t

/-- The loop of `run(∞)` (R132), under fuel (R143): when the fuel ends before the call returns, that is said by name. -/
def loopToStop : Nat → State → Host.Outcome State Fault Refusal
  | 0, _ => .fault .fuelExhausted
  | k + 1, s =>
    match cycle s with
    | .next t => if t.status = .running then loopToStop k t else .next t
    | .fault f => .fault f
    | .refused r => .refused r

/-- `run()`, that is `run(∞)` (R132), under fuel (R143; log entry 7). -/
def runToStop (fuel : Nat) (s : State) : Host.Outcome State Fault Refusal :=
  match resume s with
  | none => .next s
  | some t => loopToStop fuel t

/-- What `run` and `provide_input_and_run` return to the caller (R134). -/
inductive Report where
  /-- `Fault(fault)`; the record is present whenever the status is FAULTED (Safety.lean). -/
  | fault (f : Option FaultRecord)
  /-- `Stopped(status)`. -/
  | stopped (st : Status)
deriving DecidableEq, Repr

/-- The outcome reported for the state a call ended in (R134). -/
def report (s : State) : Report :=
  if s.status = .faulted then .fault s.fault else .stopped s.status

/-! ### Input and breakpoints -/

/-- `push_input(v)` (R138); refused where `v` is no word (70_reset_and_hazards.md R261). -/
def pushInput (v : Int) (s : State) : Host.Outcome State Fault Refusal :=
  if InRange v then .next { s with inq := s.inq ++ [v] } else .refused .inputOutOfRange

/-- The state from which `provide_input_and_run(v)` calls `run()` (R135). -/
def provideInput (v : Int) (s : State) : State :=
  { s with
    inq := s.inq ++ [v]
    status := (if s.status = .waitingForInput then .running else s.status) }

/-- `provide_input_and_run(v)` (R135), under fuel (log entry 7); refused where `v` is no word. -/
def provideInputAndRun (fuel : Nat) (v : Int) (s : State) : Host.Outcome State Fault Refusal :=
  if InRange v then runToStop fuel (provideInput v s) else .refused .inputOutOfRange

/-- `set_breakpoint(a)` (R139). -/
def setBreakpoint (a : Int) (s : State) : State := { s with bps := bpsInsert a s.bps }

/-- `clear_breakpoint(a)` (R139). -/
def clearBreakpoint (a : Int) (s : State) : State := { s with bps := bpsErase a s.bps }

/-! ### Snapshot and diff (60_exceptions.md R240 to R242) -/

/-- `save_snapshot()` (R240). -/
def saveSnapshot (s : State) : State := { s with snap := s.mem }

/-- The address put into a strictly rising list of addresses. -/
def addrInsert (a : Nat) : List Nat → List Nat
  | [] => [a]
  | b :: rest => if a < b then a :: b :: rest else if a = b then b :: rest else b :: addrInsert a rest

/-- The addresses listed by either memory, strictly rising. Elsewhere both read 0, so no difference lies outside. -/
def listedAddrs (m n : Memory) : List Nat := ((m ++ n).map Prod.fst).foldr addrInsert []

/-- `snapshot_diff()` (R241): `(address, old, new)` wherever snapshot and memory differ, addresses rising. Under `Bounded`
the domain is `[0, L-1]`. -/
def snapshotDiff (s : State) : List (Nat × Int × Int) :=
  (listedAddrs s.snap s.mem).filterMap fun (a : Nat) =>
    if Legal s.cfg a ∧ s.snap.read a ≠ s.mem.read a then some (a, s.snap.read a, s.mem.read a) else none

/-! ### The observable surface (R137) -/

/-- What the host reads (R137). -/
structure Surface where
  status : Status
  pc : Int
  lastOut : Option Int
  outlog : List Int
  cycles : Nat
deriving DecidableEq, Repr

/-- Reading the observable surface (R137). -/
def observe (s : State) : Surface :=
  { status := s.status, pc := s.pc, lastOut := s.lastOut, outlog := s.outlog, cycles := s.cycles }

/-! ### The host's moves as data (R136, R140) -/

/-- The operations by which a host can change a constructed machine (R136). `snapshotDiff`, `report` and `observe` read only. -/
inductive HostOp where
  | run (n : Nat)
  | runToStop (fuel : Nat)
  | pushInput (v : Int)
  | provideInputAndRun (fuel : Nat) (v : Int)
  | setBreakpoint (a : Int)
  | clearBreakpoint (a : Int)
  | saveSnapshot
deriving DecidableEq, Repr

/-- One host operation. -/
def applyHostOp (op : HostOp) (s : State) : Host.Outcome State Fault Refusal :=
  match op with
  | .run n => run n s
  | .runToStop fuel => runToStop fuel s
  | .pushInput v => pushInput v s
  | .provideInputAndRun fuel v => provideInputAndRun fuel v s
  | .setBreakpoint a => .next (setBreakpoint a s)
  | .clearBreakpoint a => .next (clearBreakpoint a s)
  | .saveSnapshot => .next (saveSnapshot s)

/-- A host session: the operations one after another, up to the first that stops or is refused. -/
def applyHostOps : List HostOp → State → Host.Outcome State Fault Refusal
  | [], s => .next s
  | op :: rest, s =>
    match applyHostOp op s with
    | .next t => applyHostOps rest t
    | .fault f => .fault f
    | .refused r => .refused r

end Sys2Proof.Machine
end

