-- ==== Sys2Proof/Machine/Step.lean ====
section
/-! DEFINITION. The step: exactly `run(1)` (40_engine_cycle.md R136, 90_conflicts.md C8: "A model that offers `step()` must
define it as exactly `run(1)`"; log entry 5). -/

namespace Sys2Proof.Machine

/-- One step of the machine: `run(1)`. -/
def step (s : State) : Host.Outcome State Fault Refusal := run 1 s

/-- `s` with the instruction whose `nbits` bits are `w` stored where `step` fetches its next instruction, followed by the
rest of the longest instruction's words, and with what the fetch needs (log entries 4 and 10). -/
def State.withFetchWord (s : State) (nbits w : Nat) : State :=
  placeInstruction ((List.range longestInstr).map (tableWord nbits w)) s

end Sys2Proof.Machine
end

