-- ==== Sys2Proof/Machine/Assembler.lean ====
section
/-! DEFINITION. The spec's assembly language as data (30_encoding.md R99, R100, decisions D24, D25): operands, lines with
labels, the pseudo-instructions JMP, MOV and NOP, and the words they assemble to. It is a way of writing programs; the
machine runs words only (00_scope.md R5, decision D33). The spelling of a line as text is not modelled (log entry 13). -/

namespace Sys2Proof.Machine

/-- A number of an operand: "a decimal integer or a label that stands for its address" (R99). -/
inductive AsmValue where
  | num (n : Int)
  | label (name : String)
deriving DecidableEq, Repr

/-- The three operand forms (R99): `[n]`, `#n`, and `[rb+n]` (`[rb-n]` is `rel` of `-n`). -/
inductive AsmOperand where
  | pos (n : AsmValue)
  | imm (n : AsmValue)
  | rel (n : AsmValue)
deriving DecidableEq, Repr

/-- What stands on a line after its label (R99, R100). -/
inductive AsmBody where
  | add (a b dst : AsmOperand)
  | mul (a b dst : AsmOperand)
  | inp (dst : AsmOperand)
  | out (a : AsmOperand)
  | jnz (a b : AsmOperand)
  | jz (a b : AsmOperand)
  | lt (a b dst : AsmOperand)
  | eq (a b dst : AsmOperand)
  | arb (a : AsmOperand)
  | hlt
  | jmp (t : AsmOperand)
  | mov (src dst : AsmOperand)
  | nop
  | words (ns : List AsmValue)
deriving DecidableEq, Repr

/-- `[label:] body` (R99). -/
structure AsmLine where
  label : Option String := none
  body : AsmBody
deriving DecidableEq, Repr

/-- The mode of an operand form (R99). -/
def AsmOperand.mode : AsmOperand → Mode
  | .pos _ => .position
  | .imm _ => .immediate
  | .rel _ => .relative

/-- The raw parameter of an operand (R99). -/
def AsmOperand.value : AsmOperand → AsmValue
  | .pos n => n
  | .imm n => n
  | .rel n => n

/-- The pseudo-instructions replaced by their expansions (R100). -/
def AsmBody.expand : AsmBody → AsmBody
  | .jmp t => .jnz (.imm (.num 1)) t
  | .mov src dst => .add src (.imm (.num 0)) dst
  | .nop => .jz (.imm (.num 1)) (.imm (.num 0))
  | b => b

/-- The instruction word and the raw parameters of an instruction, every unused mode digit 0 (R99). -/
def asmInstr (i : Mode → Mode → Mode → Instr) (ops : List AsmOperand) : List AsmValue :=
  let digitOf (k : Nat) : Mode := match ops[k]? with | some o => o.mode | none => .position
  .num (encode (i (digitOf 0) (digitOf 1) (digitOf 2))) :: ops.map AsmOperand.value

/-- The values a line places, labels not yet resolved (R99, R100). -/
def AsmBody.values (b : AsmBody) : List AsmValue :=
  match b.expand with
  | .add x y d => asmInstr .add [x, y, d]
  | .mul x y d => asmInstr .mul [x, y, d]
  | .inp d => asmInstr .inp [d]
  | .out x => asmInstr .out [x]
  | .jnz x y => asmInstr .jnz [x, y]
  | .jz x y => asmInstr .jz [x, y]
  | .lt x y d => asmInstr .lt [x, y, d]
  | .eq x y d => asmInstr .eq [x, y, d]
  | .arb x => asmInstr .arb [x]
  | .hlt => asmInstr .hlt []
  | .words ns => ns
  | .jmp _ => []
  | .mov _ _ => []
  | .nop => []

/-- "`d` must not be immediate" (R100): the one check the assembler makes. -/
def AsmBody.allowed : AsmBody → Bool
  | .mov _ (.imm _) => false
  | _ => true

/-- The address a label stands for: the address of its line, the first line at `at`. -/
def labelAddr (name : String) : Nat → List AsmLine → Option Int
  | _, [] => none
  | addr, l :: rest =>
    if l.label = some name then some addr else labelAddr name (addr + l.body.values.length) rest

/-- The word of a value, or none for a label that no line has. -/
def AsmValue.resolve (program : List AsmLine) : AsmValue → Option Int
  | .num n => some n
  | .label name => labelAddr name 0 program

/-- The words of a program (R99): none where a label is missing or a MOV has an immediate destination. -/
def assemble (program : List AsmLine) : Option (List Int) :=
  if program.all (fun l => l.body.allowed) then
    ((program.map (fun l => l.body.values)).flatten).mapM (AsmValue.resolve program)
  else none

end Sys2Proof.Machine
end

