-- ==== Sys2Proof/Safety.lean ====
section
/-! DEFINITION. What a sound state and a safe run are, in the terms the statements use: the invariant of the state record
(10_state.md R22 to R36), the states a host can bring about, and what an instruction stores and which of its modes are
legal. -/

namespace Sys2Proof.Machine

/-- A memory is sound: in canonical form, every stored value a word (00_scope.md R6), and under `Bounded` no word at or
above `L` (20_memory.md R52). -/
structure MemOk (c : Config) (m : Memory) : Prop where
  canonical : m.wf = true
  wordsInRange : ∀ p ∈ m, InRange p.2
  inBounds : c.policy = .bounded → ∀ p ∈ m, p.1 < c.len

/-- Exactly the fields that belong to its kind are present in a fault record (10_state.md R31). -/
def FaultRecord.wellShaped (f : FaultRecord) : Bool :=
  match f.kind with
  | .addressFault => f.addr.isSome && f.reason.isNone
  | .unknownOpcodeFault => f.addr.isNone && f.reason.isSome
  | .rangeFault => f.addr.isNone && f.reason.isNone

/-- The invariant of the machine: every element of the record holds a legal value (10_state.md R22, R36), `last_out` is the
last entry of `outlog` (R33), and a fault record is held exactly in FAULTED, with the `pc` the machine stopped at (R31). -/
structure StateInv (s : State) : Prop where
  memOk : MemOk s.cfg s.mem
  snapOk : MemOk s.cfg s.snap
  pcRange : 0 ≤ s.pc ∧ s.pc ≤ wMax
  rbRange : InRange s.rb
  inputWords : AllWords s.inq
  outputWords : AllWords s.outlog
  lastOutput : s.lastOut = s.outlog.getLast?
  breakpointSet : bpsWf s.bps = true
  faultHeld : s.status = .faulted ↔ s.fault.isSome = true
  faultShape : ∀ f, s.fault = some f → f.wellShaped = true ∧ f.pc = s.pc

/-- A cycle may start (40_engine_cycle.md R131). -/
def CanCycle (s : State) : Prop := s.status = .running ∨ s.status = .atBreakpoint

/-- The terminal statuses (40_engine_cycle.md R131). -/
def Terminal (s : State) : Prop := s.status = .halted ∨ s.status = .faulted

/-- The states a host can bring about: construction, then host operations (40_engine_cycle.md R136). -/
inductive Reachable : State → Prop where
  | constructed (program input : List Int) (policy : Policy) (s : State) :
      construct program input policy = .next s → Reachable s
  | moved (s t : State) (op : HostOp) : Reachable s → applyHostOp op s = .next t → Reachable t

/-- The parameter an instruction writes through, with its mode: parameter 3 of ADD, MUL, LT and EQ, parameter 1 of IN
(30_encoding.md R86). -/
def storeParam : Instr → Option (Nat × Mode)
  | .add _ _ m3 => some (3, m3)
  | .mul _ _ m3 => some (3, m3)
  | .inp m1 _ _ => some (1, m1)
  | .out _ _ _ => none
  | .jnz _ _ _ => none
  | .jz _ _ _ => none
  | .lt _ _ m3 => some (3, m3)
  | .eq _ _ m3 => some (3, m3)
  | .arb _ _ _ => none
  | .hlt _ _ _ => none

/-- `v` is the word the instruction stores at its target when it commits (41_arithmetic.md R160, R161, 42_io.md R170,
44_compare.md R190, R191): none for an IN that suspends, nor for an instruction without a target. -/
def StoresWord (s : State) (i : Instr) (v : Int) : Prop :=
  match i with
  | .add m1 m2 _ => ∃ a b, readOperand s 1 m1 = .ok a ∧ readOperand s 2 m2 = .ok b ∧ v = a + b
  | .mul m1 m2 _ => ∃ a b, readOperand s 1 m1 = .ok a ∧ readOperand s 2 m2 = .ok b ∧ v = a * b
  | .inp _ _ _ => s.inq.head? = some v
  | .out _ _ _ => False
  | .jnz _ _ _ => False
  | .jz _ _ _ => False
  | .lt m1 m2 _ => ∃ a b, readOperand s 1 m1 = .ok a ∧ readOperand s 2 m2 = .ok b ∧ v = if a < b then 1 else 0
  | .eq m1 m2 _ => ∃ a b, readOperand s 1 m1 = .ok a ∧ readOperand s 2 m2 = .ok b ∧ v = if a = b then 1 else 0
  | .arb _ _ _ => False
  | .hlt _ _ _ => False

/-- The mode is legal for a parameter of that role (30_encoding.md R91, R92). -/
def modeLegal : Role → Mode → Bool
  | .read, .position => true
  | .read, .immediate => true
  | .read, .relative => true
  | .read, .undefined _ => false
  | .write, .position => true
  | .write, .immediate => false
  | .write, .relative => true
  | .write, .undefined _ => false

/-- Every parameter the opcode uses has a legal mode; the digits of absent parameters do not count (30_encoding.md R93). -/
def usedModesLegal (i : Instr) : Bool :=
  (i.roles.zip [i.modes.1, i.modes.2.1, i.modes.2.2]).all (fun p => modeLegal p.1 p.2)

end Sys2Proof.Machine
end

