-- ==== Sys2Proof/Certificates/Slice0/Obligations.lean ====
section
/-! DEFINITION. The statements for the provers. Each docstring names the rule of spec/ it formalises. Where it says
"decision Dn", the clause rests on this spec's own choice (92_eei_decisions.md), and where it says "log n" on a choice of the
model (notes/assumptions/n.md). -/

open Sys2Proof Sys2Proof.Machine

/-! ### Encoding -/

/-- Decoding the instruction word of a well-formed instruction gives the instruction back, every mode digit at every value
(30_encoding.md R81, R98, R99). -/
def Obligations.DecodeUndoesEncode : Prop :=
  ∀ i : Instr, i.wellFormed = true → decode (encode i) = .ok i

/-- Whatever word decodes to an instruction is that instruction's word, and the instruction is well-formed: the decoder is a
lossless projection (R98, which the spec derives from R81 and R82). -/
def Obligations.EncodeUndoesDecode : Prop :=
  ∀ (w : Int) (i : Instr), decode w = .ok i → i.wellFormed = true ∧ encode i = w

/-- R81: the opcode is the low two decimal digits, the modes are the next three from least to most significant; 1002 is the
spec's example. -/
def Obligations.DecoderReadsDecimalDigits : Prop :=
  (∀ w : Int, 0 ≤ w → w ≤ 99999 →
    ∃ f, decodeFields w = some f ∧ f.op = w.toNat % 100 ∧ f.m1 = w.toNat / 100 % 10 ∧ f.m2 = w.toNat / 1000 % 10 ∧
      f.m3 = w.toNat / 10000 % 10) ∧
  decodeFields 1002 = some { op := 2, m1 := 0, m2 := 1, m3 := 0 }

/-- Every word is exactly one of: not canonical (R82, decision D12), of an undefined opcode (R94), or the instruction its
opcode and digits name (R81, R94, R101). -/
def Obligations.DecodeClassifiesEveryWord : Prop :=
  ∀ w : Int,
    (decode w = .error .noncanonical ↔ w < 0 ∨ 99999 < w) ∧
    (∀ op : Nat, decode w = .error (.undefinedOpcode op) ↔
      0 ≤ w ∧ w ≤ 99999 ∧ (op : Int) = w % 100 ∧ (op = 0 ∨ (10 ≤ op ∧ op ≤ 98))) ∧
    (∀ i : Instr, decode w = .ok i →
      0 ≤ w ∧ w ≤ 99999 ∧ (i.opcode : Int) = w % 100 ∧ (i.modes.1.digit : Int) = w / 100 % 10 ∧
      (i.modes.2.1.digit : Int) = w / 1000 % 10 ∧ (i.modes.2.2.digit : Int) = w / 10000 % 10)

/-- Words the spec writes out (30_encoding.md R81, R93, R100; the examples of 41 to 46; 95_test_vectors.md L1-1, L1-3, P2). -/
def Obligations.SpecWordsDecode : Prop :=
  decode 21101 = .ok (.add .immediate .immediate .relative) ∧
  decode 1002 = .ok (.mul .position .immediate .position) ∧
  decode 203 = .ok (.inp .relative .position .position) ∧
  decode 104 = .ok (.out .immediate .position .position) ∧
  decode 1105 = .ok (.jnz .immediate .immediate .position) ∧
  decode 1206 = .ok (.jz .relative .immediate .position) ∧
  decode 107 = .ok (.lt .immediate .position .position) ∧
  decode 1008 = .ok (.eq .position .immediate .position) ∧
  decode 109 = .ok (.arb .immediate .position .position) ∧
  decode 20099 = .ok (.hlt .position .position .relative) ∧
  decode 98 = .error (.undefinedOpcode 98) ∧ decode 0 = .error (.undefinedOpcode 0) ∧
  decode (-1) = .error .noncanonical ∧ decode 100000 = .error .noncanonical

/-- The pseudo-instructions of the spec's own assembly language, and one instruction in its operand forms, assemble to the
words of the tables (30_encoding.md R99, R100, decisions D24, D25), for every number as operand: JMP to its three target forms,
NOP, and MOV from every source form to every destination form that is not immediate. That MOV to an immediate destination
assembles to nothing is the model's choice (log 13): the spec only says that the destination must not be immediate. -/
def Obligations.PseudoInstructionsExpand : Prop :=
  ∀ t u : Int,
    assemble [{ body := .jmp (.imm (.num t)) }] = some [1105, 1, t] ∧
    assemble [{ body := .jmp (.pos (.num t)) }] = some [105, 1, t] ∧
    assemble [{ body := .jmp (.rel (.num t)) }] = some [2105, 1, t] ∧
    assemble [{ body := .nop }] = some [1106, 1, 0] ∧
    (∀ src ∈ [AsmOperand.pos (.num t), .imm (.num t), .rel (.num t)],
      (∀ dst ∈ [AsmOperand.pos (.num u), .rel (.num u)],
        assemble [{ body := .mov src dst }] =
          some [1 + 100 * (src.mode.digit : Int) + 1000 * 1 + 10000 * (dst.mode.digit : Int), t, 0, u]) ∧
      assemble [{ body := .mov src (.imm (.num u)) }] = none) ∧
    assemble [{ body := .add (.pos (.num t)) (.imm (.num (-1))) (.pos (.num u)) }] = some [1001, t, -1, u]

/-! ### Operands and the memory arbiter -/

/-- R87: the value of a read operand in each mode, and that immediate mode is no write target. -/
def Obligations.ReadOperandValues : Prop :=
  ∀ (s : State) (k : Nat), InRange (s.pc + k) → Legal s.cfg (s.pc + k) →
    ∀ raw, raw = s.mem.read (s.pc + k).toNat →
      (Legal s.cfg raw → readOperand s k .position = .ok (s.mem.read raw.toNat)) ∧
      readOperand s k .immediate = .ok raw ∧
      (InRange (raw + s.rb) → Legal s.cfg (raw + s.rb) →
        readOperand s k .relative = .ok (s.mem.read (raw + s.rb).toNat)) ∧
      (∀ t, writeAddress s k .immediate ≠ .ok t)

/-- R88: the address of a write target in each mode; immediate mode has none. -/
def Obligations.WriteTargetAddresses : Prop :=
  ∀ (s : State) (k : Nat), InRange (s.pc + k) → Legal s.cfg (s.pc + k) →
    ∀ raw, raw = s.mem.read (s.pc + k).toNat →
      (Legal s.cfg raw → writeAddress s k .position = .ok raw) ∧
      (∀ t, writeAddress s k .immediate ≠ .ok t) ∧
      (InRange (raw + s.rb) → Legal s.cfg (raw + s.rb) → writeAddress s k .relative = .ok (raw + s.rb))

/-- The checks of one parameter, in the order of 30_encoding.md R89 to R92 (decisions D3, D13, D15): the mode digit, the
range of `pc+k`, the address `pc+k`, the range of `raw+rb`, the formed address. -/
def Obligations.ParameterChecksInOrder : Prop :=
  ∀ (s : State) (k : Nat),
    (∀ d, readOperand s k (.undefined d) = .error (unknownOpcodeFault s.pc .mode) ∧
      writeAddress s k (.undefined d) = .error (unknownOpcodeFault s.pc .mode)) ∧
    writeAddress s k .immediate = .error (unknownOpcodeFault s.pc .mode) ∧
    (¬ InRange (s.pc + k) →
      (∀ m ∈ [Mode.position, .immediate, .relative], readOperand s k m = .error (rangeFault s.pc)) ∧
      (∀ m ∈ [Mode.position, .relative], writeAddress s k m = .error (rangeFault s.pc))) ∧
    (InRange (s.pc + k) → ¬ Legal s.cfg (s.pc + k) →
      (∀ m ∈ [Mode.position, .immediate, .relative],
        readOperand s k m = .error (addressFault s.pc (s.pc + k))) ∧
      (∀ m ∈ [Mode.position, .relative], writeAddress s k m = .error (addressFault s.pc (s.pc + k)))) ∧
    (InRange (s.pc + k) → Legal s.cfg (s.pc + k) → ∀ raw, raw = s.mem.read (s.pc + k).toNat →
      (¬ Legal s.cfg raw →
        readOperand s k .position = .error (addressFault s.pc raw) ∧
        writeAddress s k .position = .error (addressFault s.pc raw)) ∧
      (¬ InRange (raw + s.rb) →
        readOperand s k .relative = .error (rangeFault s.pc) ∧
        writeAddress s k .relative = .error (rangeFault s.pc)) ∧
      (InRange (raw + s.rb) → ¬ Legal s.cfg (raw + s.rb) →
        readOperand s k .relative = .error (addressFault s.pc (raw + s.rb)) ∧
        writeAddress s k .relative = .error (addressFault s.pc (raw + s.rb))))

/-- R52: bounded memory has exactly the addresses 0 to L-1; a legal read gives the stored word, a legal write replaces it,
any other access raises AddressFault, and the length never changes. -/
def Obligations.BoundedMemoryHasExactlyLWords : Prop :=
  ∀ s : State, s.cfg.policy = .bounded →
    (∀ a : Int, Legal s.cfg a ↔ 0 ≤ a ∧ a < s.cfg.len) ∧
    (∀ a : Int, 0 ≤ a → a < s.cfg.len → memRead s a = .ok (s.mem.read a.toNat) ∧ checkAddr s a = .ok a) ∧
    (∀ a : Int, a < 0 ∨ s.cfg.len ≤ a →
      memRead s a = .error (addressFault s.pc a) ∧ checkAddr s a = .error (addressFault s.pc a)) ∧
    (s.mem.wf = true → ∀ (a : Int) (v : Int), 0 ≤ a → a < s.cfg.len →
      memRead { s with mem := s.mem.write a.toNat v } a = .ok v) ∧
    (s.cfg.len = 0 → ∀ a : Int, ¬ Legal s.cfg a) ∧
    (∀ t, step s = .next t → t.cfg.len = s.cfg.len)

/-- Unbounded memory: only negative addresses are illegal, an unlisted address reads 0, and a write never fails for its size
(20_memory.md R53; that addresses stay words is decision D3). -/
def Obligations.UnboundedMemoryDefaultsToZero : Prop :=
  ∀ s : State, s.cfg.policy = .unbounded →
    (∀ a : Int, 0 ≤ a → memRead s a = .ok (s.mem.read a.toNat) ∧ checkAddr s a = .ok a) ∧
    (∀ a : Int, a < 0 →
      memRead s a = .error (addressFault s.pc a) ∧ checkAddr s a = .error (addressFault s.pc a)) ∧
    (∀ a : Nat, (∀ p ∈ s.mem, p.1 ≠ a) → memRead s a = .ok 0) ∧
    (s.mem.wf = true → ∀ (a : Int) (v : Int), 0 ≤ a → memRead { s with mem := s.mem.write a.toNat v } a = .ok v)

/-- Memory is a function of its reads: two canonical memories that read alike everywhere are the same data (20_memory.md R53
and 10_state.md R37, decision D38: memory is a total function with default 0). -/
def Obligations.EqualReadsMeanEqualMemory : Prop :=
  ∀ m n : Memory, m.wf = true → n.wf = true → (∀ a, m.read a = n.read a) → m = n

/-! ### The instructions

Each statement says the instruction word, the length, every fault in the spec's order, and the next state where the
instruction completes, with every field that is not named left as it was. The order of checks is decision D15, the range
faults decision D3, the mode faults decision D13. -/

/-- The fault clauses shared by the instructions that read two operands and then validate a target (40_engine_cycle.md R126):
the first check that fails raises its fault. -/
def Sys2Proof.Machine.BinaryOperandFaults (i : Instr) (m1 m2 m3 : Mode) : Prop :=
  ∀ s : State,
    (∀ f, readOperand s 1 m1 = .error f → exec i s = .next (takeFault s f)) ∧
    (∀ a f, readOperand s 1 m1 = .ok a → readOperand s 2 m2 = .error f → exec i s = .next (takeFault s f)) ∧
    (∀ a b f, readOperand s 1 m1 = .ok a → readOperand s 2 m2 = .ok b → writeAddress s 3 m3 = .error f →
      exec i s = .next (takeFault s f))

/-- ADD (41_arithmetic.md R160). -/
def Obligations.AddExecutes : Prop :=
  ∀ m1 m2 m3 : Mode,
    encode (.add m1 m2 m3) = 1 + 100 * m1.digit + 1000 * m2.digit + 10000 * m3.digit ∧
    (Instr.add m1 m2 m3).length = 4 ∧
    BinaryOperandFaults (.add m1 m2 m3) m1 m2 m3 ∧
    ∀ (s : State) (a b t : Int),
      readOperand s 1 m1 = .ok a → readOperand s 2 m2 = .ok b → writeAddress s 3 m3 = .ok t →
      (¬ InRange (a + b) → exec (.add m1 m2 m3) s = .next (takeFault s (rangeFault s.pc))) ∧
      (InRange (a + b) → ¬ InRange (s.pc + 4) → exec (.add m1 m2 m3) s = .next (takeFault s (rangeFault s.pc))) ∧
      (InRange (a + b) → InRange (s.pc + 4) → exec (.add m1 m2 m3) s =
        .next { s with mem := s.mem.write t.toNat (a + b), pc := s.pc + 4, cycles := s.cycles + 1 })

/-- MUL (41_arithmetic.md R161). -/
def Obligations.MulExecutes : Prop :=
  ∀ m1 m2 m3 : Mode,
    encode (.mul m1 m2 m3) = 2 + 100 * m1.digit + 1000 * m2.digit + 10000 * m3.digit ∧
    (Instr.mul m1 m2 m3).length = 4 ∧
    BinaryOperandFaults (.mul m1 m2 m3) m1 m2 m3 ∧
    ∀ (s : State) (a b t : Int),
      readOperand s 1 m1 = .ok a → readOperand s 2 m2 = .ok b → writeAddress s 3 m3 = .ok t →
      (¬ InRange (a * b) → exec (.mul m1 m2 m3) s = .next (takeFault s (rangeFault s.pc))) ∧
      (InRange (a * b) → ¬ InRange (s.pc + 4) → exec (.mul m1 m2 m3) s = .next (takeFault s (rangeFault s.pc))) ∧
      (InRange (a * b) → InRange (s.pc + 4) → exec (.mul m1 m2 m3) s =
        .next { s with mem := s.mem.write t.toNat (a * b), pc := s.pc + 4, cycles := s.cycles + 1 })

/-- IN (42_io.md R170, R172; the target before the queue is decision D17): the digits `m2` and `m3` do not matter. -/
def Obligations.InExecutes : Prop :=
  ∀ m1 m2 m3 : Mode,
    encode (.inp m1 .position .position) = 3 + 100 * m1.digit ∧ (Instr.inp m1 m2 m3).length = 2 ∧
    ∀ s : State,
      (∀ f, writeAddress s 1 m1 = .error f → exec (.inp m1 m2 m3) s = .next (takeFault s f)) ∧
      (∀ t, writeAddress s 1 m1 = .ok t → s.inq = [] → InRange s.pc → exec (.inp m1 m2 m3) s =
        .next { s with status := .waitingForInput, cycles := s.cycles + 1 }) ∧
      (∀ t x rest, writeAddress s 1 m1 = .ok t → s.inq = x :: rest →
        (¬ InRange (s.pc + 2) → exec (.inp m1 m2 m3) s = .next (takeFault s (rangeFault s.pc))) ∧
        (InRange (s.pc + 2) → exec (.inp m1 m2 m3) s =
          .next { s with mem := s.mem.write t.toNat x, inq := rest, pc := s.pc + 2, cycles := s.cycles + 1 }))

/-- OUT (42_io.md R171), whose commit is R173's `emit`: it records the operand as the last output and appends it to the log,
and has no other side effect; the digits `m2` and `m3` do not matter. -/
def Obligations.OutExecutes : Prop :=
  ∀ m1 m2 m3 : Mode,
    encode (.out m1 .position .position) = 4 + 100 * m1.digit ∧ (Instr.out m1 m2 m3).length = 2 ∧
    ∀ s : State,
      (∀ f, readOperand s 1 m1 = .error f → exec (.out m1 m2 m3) s = .next (takeFault s f)) ∧
      (∀ a, readOperand s 1 m1 = .ok a →
        (¬ InRange (s.pc + 2) → exec (.out m1 m2 m3) s = .next (takeFault s (rangeFault s.pc))) ∧
        (InRange (s.pc + 2) → exec (.out m1 m2 m3) s =
          .next { s with lastOut := some a, outlog := s.outlog ++ [a], pc := s.pc + 2, cycles := s.cycles + 1 }))

/-- JNZ (43_branch.md R180; the negative target is decision D18): the digit `m3` does not matter. -/
def Obligations.JnzExecutes : Prop :=
  ∀ m1 m2 m3 : Mode,
    encode (.jnz m1 m2 .position) = 5 + 100 * m1.digit + 1000 * m2.digit ∧ (Instr.jnz m1 m2 m3).length = 3 ∧
    ∀ s : State,
      (∀ f, readOperand s 1 m1 = .error f → exec (.jnz m1 m2 m3) s = .next (takeFault s f)) ∧
      (∀ a f, readOperand s 1 m1 = .ok a → readOperand s 2 m2 = .error f →
        exec (.jnz m1 m2 m3) s = .next (takeFault s f)) ∧
      (∀ a b, readOperand s 1 m1 = .ok a → readOperand s 2 m2 = .ok b →
        (a ≠ 0 → b < 0 → exec (.jnz m1 m2 m3) s = .next (takeFault s (addressFault s.pc b))) ∧
        (a ≠ 0 → 0 ≤ b → exec (.jnz m1 m2 m3) s = .next { s with pc := b, cycles := s.cycles + 1 }) ∧
        (a = 0 → ¬ InRange (s.pc + 3) → exec (.jnz m1 m2 m3) s = .next (takeFault s (rangeFault s.pc))) ∧
        (a = 0 → InRange (s.pc + 3) →
          exec (.jnz m1 m2 m3) s = .next { s with pc := s.pc + 3, cycles := s.cycles + 1 }))

/-- JZ (43_branch.md R181; the negative target is decision D18): the digit `m3` does not matter. -/
def Obligations.JzExecutes : Prop :=
  ∀ m1 m2 m3 : Mode,
    encode (.jz m1 m2 .position) = 6 + 100 * m1.digit + 1000 * m2.digit ∧ (Instr.jz m1 m2 m3).length = 3 ∧
    ∀ s : State,
      (∀ f, readOperand s 1 m1 = .error f → exec (.jz m1 m2 m3) s = .next (takeFault s f)) ∧
      (∀ a f, readOperand s 1 m1 = .ok a → readOperand s 2 m2 = .error f →
        exec (.jz m1 m2 m3) s = .next (takeFault s f)) ∧
      (∀ a b, readOperand s 1 m1 = .ok a → readOperand s 2 m2 = .ok b →
        (a = 0 → b < 0 → exec (.jz m1 m2 m3) s = .next (takeFault s (addressFault s.pc b))) ∧
        (a = 0 → 0 ≤ b → exec (.jz m1 m2 m3) s = .next { s with pc := b, cycles := s.cycles + 1 }) ∧
        (a ≠ 0 → ¬ InRange (s.pc + 3) → exec (.jz m1 m2 m3) s = .next (takeFault s (rangeFault s.pc))) ∧
        (a ≠ 0 → InRange (s.pc + 3) →
          exec (.jz m1 m2 m3) s = .next { s with pc := s.pc + 3, cycles := s.cycles + 1 }))

/-- LT (44_compare.md R190): signed and strict. -/
def Obligations.LtExecutes : Prop :=
  ∀ m1 m2 m3 : Mode,
    encode (.lt m1 m2 m3) = 7 + 100 * m1.digit + 1000 * m2.digit + 10000 * m3.digit ∧
    (Instr.lt m1 m2 m3).length = 4 ∧
    BinaryOperandFaults (.lt m1 m2 m3) m1 m2 m3 ∧
    ∀ (s : State) (a b t : Int),
      readOperand s 1 m1 = .ok a → readOperand s 2 m2 = .ok b → writeAddress s 3 m3 = .ok t →
      (¬ InRange (s.pc + 4) → exec (.lt m1 m2 m3) s = .next (takeFault s (rangeFault s.pc))) ∧
      (InRange (s.pc + 4) → a < b → exec (.lt m1 m2 m3) s =
        .next { s with mem := s.mem.write t.toNat 1, pc := s.pc + 4, cycles := s.cycles + 1 }) ∧
      (InRange (s.pc + 4) → ¬ a < b → exec (.lt m1 m2 m3) s =
        .next { s with mem := s.mem.write t.toNat 0, pc := s.pc + 4, cycles := s.cycles + 1 })

/-- EQ (44_compare.md R191). -/
def Obligations.EqExecutes : Prop :=
  ∀ m1 m2 m3 : Mode,
    encode (.eq m1 m2 m3) = 8 + 100 * m1.digit + 1000 * m2.digit + 10000 * m3.digit ∧
    (Instr.eq m1 m2 m3).length = 4 ∧
    BinaryOperandFaults (.eq m1 m2 m3) m1 m2 m3 ∧
    ∀ (s : State) (a b t : Int),
      readOperand s 1 m1 = .ok a → readOperand s 2 m2 = .ok b → writeAddress s 3 m3 = .ok t →
      (¬ InRange (s.pc + 4) → exec (.eq m1 m2 m3) s = .next (takeFault s (rangeFault s.pc))) ∧
      (InRange (s.pc + 4) → a = b → exec (.eq m1 m2 m3) s =
        .next { s with mem := s.mem.write t.toNat 1, pc := s.pc + 4, cycles := s.cycles + 1 }) ∧
      (InRange (s.pc + 4) → a ≠ b → exec (.eq m1 m2 m3) s =
        .next { s with mem := s.mem.write t.toNat 0, pc := s.pc + 4, cycles := s.cycles + 1 })

/-- ARB (45_relbase.md R200): the operand is read with the old `rb`; the digits `m2` and `m3` do not matter. -/
def Obligations.ArbExecutes : Prop :=
  ∀ m1 m2 m3 : Mode,
    encode (.arb m1 .position .position) = 9 + 100 * m1.digit ∧ (Instr.arb m1 m2 m3).length = 2 ∧
    ∀ s : State,
      (∀ f, readOperand s 1 m1 = .error f → exec (.arb m1 m2 m3) s = .next (takeFault s f)) ∧
      (∀ a, readOperand s 1 m1 = .ok a →
        (¬ InRange (s.rb + a) → exec (.arb m1 m2 m3) s = .next (takeFault s (rangeFault s.pc))) ∧
        (InRange (s.rb + a) → ¬ InRange (s.pc + 2) → exec (.arb m1 m2 m3) s = .next (takeFault s (rangeFault s.pc))) ∧
        (InRange (s.rb + a) → InRange (s.pc + 2) → exec (.arb m1 m2 m3) s =
          .next { s with rb := s.rb + a, pc := s.pc + 2, cycles := s.cycles + 1 }))

/-- R210: every canonical word with low digits 99 is HLT, of length 1; it commits with `pc` unchanged and raises nothing
itself; HALTED is terminal; a breakpoint on it stops first, and the next `run` halts. (`InRange s.pc` holds in every state a
host can reach: `ReachableStatesMeetTheInvariant`.) -/
def Obligations.HltExecutes : Prop :=
  (∀ w : Int, 0 ≤ w → w ≤ 99999 → w % 100 = 99 → ∃ m1 m2 m3, decode w = .ok (.hlt m1 m2 m3)) ∧
  (∀ m1 m2 m3, (Instr.hlt m1 m2 m3).length = 1) ∧
  (∀ (m1 m2 m3 : Mode) (s : State), InRange s.pc →
    exec (.hlt m1 m2 m3) s = .next { s with status := .halted, cycles := s.cycles + 1 }) ∧
  (∀ s : State, s.status = .halted → (∀ n, run n s = .next s) ∧ (∀ fuel, runToStop fuel s = .next s)) ∧
  (∀ (s : State) (m1 m2 m3 : Mode), s.status = .running → s.pc ∈ s.bps → InRange s.pc → fetch s = .ok (encode (.hlt m1 m2 m3)) →
    (Instr.hlt m1 m2 m3).wellFormed = true →
    ∀ n, run (n + 1) s = .next { s with status := .atBreakpoint } ∧
      run (n + 1) { s with status := .atBreakpoint } = .next { s with status := .halted, cycles := s.cycles + 1 })

/-! ### The cycle -/

/-- R121: the breakpoint check comes before anything is fetched. -/
def Obligations.BreakpointStopsBeforeTheFetch : Prop :=
  ∀ s : State, s.pc ∈ s.bps → s.status ≠ .atBreakpoint → cycle s = .next { s with status := .atBreakpoint }

/-- R122: the next cycle clears the latch and goes on to step 3, and the breakpoint is armed for the next visit. -/
def Obligations.LatchClearsAndRearms : Prop :=
  ∀ s : State, s.status = .atBreakpoint →
    cycle s = fetchExecute { s with status := .running } ∧
    ∀ t, cycle s = .next t → t.status = .running → t.pc ∈ t.bps → cycle t = .next { t with status := .atBreakpoint }

/-- A step runs the instruction the word at `pc` decodes to (40_engine_cycle.md R123, R124): from RUNNING with no breakpoint at
`pc`, from AT_BREAKPOINT, and from WAITING_FOR_INPUT with input at hand and no breakpoint (R133, decision D21). The status the
instruction starts from is RUNNING (R122, R133). That a step is `run(1)` is log 5. -/
def Obligations.StepRunsTheDecodedInstruction : Prop :=
  ∀ (s : State) (i : Instr),
    ((s.status = .running ∧ s.pc ∉ s.bps) ∨ s.status = .atBreakpoint ∨
      (s.status = .waitingForInput ∧ s.inq ≠ [] ∧ s.pc ∉ s.bps)) →
    Legal s.cfg s.pc → decode (s.mem.read s.pc.toNat) = .ok i →
    step s = exec i { s with status := .running }

/-- A word that is no instruction faults at once, no parameter word being read (40_engine_cycle.md R123, R124,
46_halt_and_illegal.md R211; the reason `noncanonical` is decision D12). -/
def Obligations.IllegalWordsFault : Prop :=
  ∀ s : State, ((s.status = .running ∧ s.pc ∉ s.bps) ∨ s.status = .atBreakpoint) →
    (¬ Legal s.cfg s.pc → step s = .next (takeFault s (addressFault s.pc s.pc))) ∧
    (Legal s.cfg s.pc →
      (s.mem.read s.pc.toNat < 0 ∨ 99999 < s.mem.read s.pc.toNat →
        step s = .next (takeFault s (unknownOpcodeFault s.pc .noncanonical))) ∧
      (∀ op : Nat, 0 ≤ s.mem.read s.pc.toNat → s.mem.read s.pc.toNat ≤ 99999 → (op : Int) = s.mem.read s.pc.toNat % 100 →
        (op = 0 ∨ (10 ≤ op ∧ op ≤ 98)) → step s = .next (takeFault s (unknownOpcodeFault s.pc .opcode))))

/-- R130: a fault sets `status` and `fault` and changes nothing else, and is then reported to the caller. -/
def Obligations.FaultsArePrecise : Prop :=
  ∀ s t : State, s.status ≠ .faulted → step s = .next t → t.status = .faulted →
    ∃ f, t = { s with status := .faulted, fault := some f } ∧ f.pc = s.pc ∧ report t = .fault (some f)

/-- A fault record says what went wrong: an AddressFault names an address that is not legal, an UnknownOpcodeFault of an
instruction has the reason `mode` and some used mode of it is illegal, and each record has exactly its kind's fields
(60_exceptions.md R221 to R224, 30_encoding.md R91, R92, decisions D3, D13, D18). -/
def Obligations.FaultRecordsTellTheCause : Prop :=
  ∀ (i : Instr) (s t : State) (f : FaultRecord), s.status ≠ .faulted → exec i s = .next t → t.status = .faulted →
    t.fault = some f →
      (f.kind = .addressFault → ∃ a, f = addressFault s.pc a ∧ ¬ Legal s.cfg a) ∧
      (f.kind = .unknownOpcodeFault → f = unknownOpcodeFault s.pc .mode ∧ usedModesLegal i = false) ∧
      (f.kind = .rangeFault → f = rangeFault s.pc)

/-- Every committing cycle adds exactly 1 to `cycles`, a suspending IN and HLT included, and a faulting one adds nothing
(10_state.md R28, 40_engine_cycle.md R128, decision D35). -/
def Obligations.CommittedCyclesCountOnce : Prop :=
  ∀ (i : Instr) (s t : State), s.status ≠ .faulted → exec i s = .next t →
    (t.status = .faulted ∧ t.cycles = s.cycles) ∨ (t.status ≠ .faulted ∧ t.cycles = s.cycles + 1)

/-- The new `pc` of a committed instruction, as 10_state.md R24 lists it. -/
def Sys2Proof.Machine.PcRule (s t : State) : Instr → Prop
  | .add _ _ _ => t.pc = s.pc + 4
  | .mul _ _ _ => t.pc = s.pc + 4
  | .inp _ _ _ => (s.inq ≠ [] ∧ t.pc = s.pc + 2) ∨ (s.inq = [] ∧ t.pc = s.pc)
  | .out _ _ _ => t.pc = s.pc + 2
  | .jnz m1 m2 _ => ∃ a b, readOperand s 1 m1 = .ok a ∧ readOperand s 2 m2 = .ok b ∧
      ((a ≠ 0 ∧ t.pc = b) ∨ (a = 0 ∧ t.pc = s.pc + 3))
  | .jz m1 m2 _ => ∃ a b, readOperand s 1 m1 = .ok a ∧ readOperand s 2 m2 = .ok b ∧
      ((a = 0 ∧ t.pc = b) ∨ (a ≠ 0 ∧ t.pc = s.pc + 3))
  | .lt _ _ _ => t.pc = s.pc + 4
  | .eq _ _ _ => t.pc = s.pc + 4
  | .arb _ _ _ => t.pc = s.pc + 2
  | .hlt _ _ _ => t.pc = s.pc

/-- R24: `pc` changes only when a cycle commits, to the value listed; a breakpoint hit and a fault leave it unchanged. -/
def Obligations.ProgramCounterFollowsTheTable : Prop :=
  (∀ (i : Instr) (s t : State), s.status ≠ .faulted → exec i s = .next t →
    (t.status ≠ .faulted → PcRule s t i) ∧ (t.status = .faulted → t.pc = s.pc)) ∧
  (∀ s t : State, step s = .next t → t.pc ≠ s.pc → t.cycles = s.cycles + 1) ∧
  (∀ s t : State, BreakpointHit s → cycle s = .next t → t.pc = s.pc)

/-- The status an instruction leaves, and the transitions outside the opcodes (R129): HALTED by HLT, WAITING_FOR_INPUT by an
IN with an empty queue, FAULTED by a fault, and otherwise the status stays; AT_BREAKPOINT by the breakpoint check. The host side
changes it only from WAITING_FOR_INPUT to RUNNING, where `run` resumes and in `provide_input_and_run`; its other operations leave
it alone. -/
def Obligations.StatusChangesAsDocumented : Prop :=
  (∀ (i : Instr) (s t : State), s.status = .running → exec i s = .next t →
    t.status = .running ∨ (t.status = .halted ∧ i.opcode = 99) ∨
    (t.status = .waitingForInput ∧ i.opcode = 3 ∧ s.inq = []) ∨
    (t.status = .faulted ∧ ∃ f, t = takeFault s f)) ∧
  (∀ s t : State, CanCycle s → cycle s = .next t → t.status = .atBreakpoint →
    s.pc ∈ s.bps ∧ s.status = .running ∧ t = { s with status := .atBreakpoint }) ∧
  (∀ s u : State, resume s = some u → u.status ≠ s.status → s.status = .waitingForInput ∧ u = { s with status := .running }) ∧
  (∀ (s : State) (v : Int), (provideInput v s).status ≠ s.status →
    s.status = .waitingForInput ∧ (provideInput v s).status = .running) ∧
  (∀ (op : HostOp) (s t : State),
    (∃ v, op = .pushInput v) ∨ (∃ a, op = .setBreakpoint a) ∨ (∃ a, op = .clearBreakpoint a) ∨ op = .saveSnapshot →
    applyHostOp op s = .next t → t.status = s.status)

/-! ### What each instruction leaves alone -/

/-- `rb` is written only by ARB, starts at 0, stays a word, is used by every relative parameter, and is neither written by the
host's own operations nor seen by it (R26). -/
def Obligations.RelativeBaseWrittenOnlyByArb : Prop :=
  (∀ (program input : List Int) (policy : Policy) (s : State), construct program input policy = .next s → s.rb = 0) ∧
  (∀ (i : Instr) (s t : State), exec i s = .next t → t.rb ≠ s.rb → ∃ m1 m2 m3, i = .arb m1 m2 m3) ∧
  (∀ (i : Instr) (s t : State), InRange s.rb → exec i s = .next t → InRange t.rb) ∧
  (∀ (s : State) (raw : Int), InRange (raw + s.rb) → relativeAddr s raw = .ok (raw + s.rb)) ∧
  (∀ (s t : State) (op : HostOp),
    (∃ v, op = .pushInput v) ∨ (∃ a, op = .setBreakpoint a) ∨ (∃ a, op = .clearBreakpoint a) ∨ op = .saveSnapshot →
    applyHostOp op s = .next t → t.rb = s.rb) ∧
  (∀ (s : State) (v : Int), (provideInput v s).rb = s.rb) ∧
  (∀ (s : State) (r : Int), observe { s with rb := r } = observe s)

/-- The input queue is consumed from its head, by IN only, one value at a time, and no other instruction looks at it
(10_state.md R32, 42_io.md R172, decision D16). -/
def Obligations.InputConsumedFifoByInOnly : Prop :=
  (∀ (i : Instr) (s t : State), exec i s = .next t →
    t.inq = s.inq ∨ (i.opcode = 3 ∧ ∃ x, s.inq = x :: t.inq ∧
      ∃ target, writeAddress s 1 i.modes.1 = .ok target ∧ t.mem = s.mem.write target.toNat x)) ∧
  (∀ (i : Instr) (s t : State) (q : List Int), i.opcode ≠ 3 → exec i s = .next t →
    exec i { s with inq := q } = .next { t with inq := q })

/-- The output log only grows, by at most one value a cycle and by OUT only; whatever the host does, what was written stays
(10_state.md R33, 42_io.md R173; the reset value of `last_out` is decision D9). -/
def Obligations.OutputLogOnlyGrows : Prop :=
  (∀ (i : Instr) (s t : State), exec i s = .next t →
    (t.outlog = s.outlog ∧ t.lastOut = s.lastOut) ∨
    (i.opcode = 4 ∧ ∃ v, readOperand s 1 i.modes.1 = .ok v ∧ t.outlog = s.outlog ++ [v] ∧ t.lastOut = some v)) ∧
  (∀ (op : HostOp) (s t : State), applyHostOp op s = .next t → s.outlog <+: t.outlog)

/-- Every word of memory outside the target reads as before, whatever the instruction and however it ends; an instruction that
has no target, or whose target does not resolve, leaves all of memory (20_memory.md R56, 40_engine_cycle.md R128, decision
D16). -/
def Obligations.StoresOnlyAtTheTarget : Prop :=
  ∀ (i : Instr) (s t : State), exec i s = .next t →
    (storeParam i = none → ∀ a, t.mem.read a = s.mem.read a) ∧
    (∀ k m, storeParam i = some (k, m) →
      (∀ f, writeAddress s k m = .error f → ∀ a, t.mem.read a = s.mem.read a) ∧
      (∀ x, writeAddress s k m = .ok x → s.mem.wf = true →
        ∀ a : Nat, (a : Int) ≠ x → t.mem.read a = s.mem.read a))

/-- The rest of the frame (10_state.md R21, R36): no instruction writes the configuration, the breakpoints or the snapshot; only
ARB writes `rb`, only IN the queue, only OUT the output registers, only HLT and IN a status other than FAULTED, and `fault`
is written only together with FAULTED. -/
def Obligations.InstructionsLeaveTheRestAlone : Prop :=
  ∀ (i : Instr) (s t : State), exec i s = .next t →
    t.cfg = s.cfg ∧ t.bps = s.bps ∧ t.snap = s.snap ∧
    (i.opcode ≠ 9 → t.rb = s.rb) ∧ (i.opcode ≠ 3 → t.inq = s.inq) ∧
    (i.opcode ≠ 4 → t.lastOut = s.lastOut ∧ t.outlog = s.outlog) ∧
    (i.opcode ≠ 3 → i.opcode ≠ 99 → t.status = s.status ∨ t.status = .faulted) ∧
    (t.fault = s.fault ∨ t.status = .faulted)

/-- What the program cannot observe does not steer it: changing `cycles`, the outputs, the breakpoints, the snapshot or the
fault record changes nothing that an instruction computes (10_state.md R28, R29, R35, R37). -/
def Obligations.DiagnosticStateNeverRead : Prop :=
  ∀ (i : Instr) (s t : State) (c : Nat) (l : Option Int) (o : List Int) (b : List Int) (n : Memory)
    (g : Option FaultRecord), exec i s = .next t →
    ∃ u, exec i { s with cycles := c, lastOut := l, outlog := o, bps := b, snap := n, fault := g } = .next u ∧
      u.mem = t.mem ∧ u.pc = t.pc ∧ u.rb = t.rb ∧ u.status = t.status ∧ u.inq = t.inq ∧ u.cfg = t.cfg ∧
      u.bps = b ∧ u.snap = n

/-- A store is seen by the very next fetch: whatever instruction stores, when it commits, the word stored is what its target
reads afterwards, and when the new `pc` is the target, it is what the next fetch reads (20_memory.md R66,
70_reset_and_hazards.md R267, both derived by the spec). -/
def Obligations.FetchSeesThePreviousStore : Prop :=
  ∀ (i : Instr) (s t : State) (k : Nat) (m : Mode) (x v : Int), s.mem.wf = true →
    storeParam i = some (k, m) → writeAddress s k m = .ok x → StoresWord s i v →
    exec i s = .next t → t.status ≠ .faulted →
    t.mem.read x.toNat = v ∧ (t.pc = x → fetch t = .ok v)

/-! ### Runs -/

/-- No cycle executes in HALTED or FAULTED, and none starts in WAITING_FOR_INPUT (40_engine_cycle.md R131). That `run` returns a
terminal machine with no change is R132 (decision D20); that it returns a waiting machine with no change where the queue is
empty, and otherwise runs it as a RUNNING one, is R133 (decision D21). The fuel of `run(∞)` is log 7, the decisions log 16. -/
def Obligations.TerminalMachinesNeverCycle : Prop :=
  (∀ s : State, s.status = .halted ∨ s.status = .faulted →
    (∀ n, run n s = .next s) ∧ (∀ fuel, runToStop fuel s = .next s)) ∧
  (∀ s : State, s.status = .waitingForInput → s.inq = [] →
    (∀ n, run n s = .next s) ∧ (∀ fuel, runToStop fuel s = .next s)) ∧
  (∀ s : State, s.status = .waitingForInput → s.inq ≠ [] →
    (∀ n, run (n + 1) s = run (n + 1) { s with status := .running }) ∧
    (∀ fuel, runToStop fuel s = runToStop fuel { s with status := .running }))

/-- R225: a fault is permanent: whatever the host does afterwards, the machine stays FAULTED with the same record, and
nothing of the machine but the queue, the breakpoints and the snapshot can change. -/
def Obligations.FaultIsPermanent : Prop :=
  ∀ (ops : List HostOp) (s t : State), s.status = .faulted → applyHostOps ops s = .next t →
    t.status = .faulted ∧ t.fault = s.fault ∧ t.mem = s.mem ∧ t.pc = s.pc ∧ t.rb = s.rb ∧ t.cycles = s.cycles ∧
    t.lastOut = s.lastOut ∧ t.outlog = s.outlog ∧ t.cfg = s.cfg

/-- The suspensions WAITING_FOR_INPUT and AT_BREAKPOINT record nothing in `fault` and are reported as `Stopped(status)`
(60_exceptions.md R226). That only FAULTED is reported as a fault, with its record, and that every other status, RUNNING and
HALTED among them, is reported as `Stopped(status)`, is 40_engine_cycle.md R134 (decision D34, log 16). The premise is the
invariant that `HostOperationsKeepTheInvariant` and `ReachableStatesMeetTheInvariant` are about. -/
def Obligations.SuspensionsAreNotFailures : Prop :=
  ∀ s : State, StateInv s →
    (s.status = .waitingForInput ∨ s.status = .atBreakpoint → s.fault = none ∧ report s = .stopped s.status) ∧
    (∀ f, report s = .fault f → s.status = .faulted ∧ s.fault = f ∧ f.isSome = true) ∧
    (s.status ≠ .faulted → report s = .stopped s.status)

/-- The budget of `run(n)` (40_engine_cycle.md R132, R142, decision D36): at most `n` cycles commit, and a run that ends in
RUNNING has used its budget to the last cycle. -/
def Obligations.RunBudgetIsExact : Prop :=
  ∀ (n : Nat) (s t : State), run n s = .next t →
    s.cycles ≤ t.cycles ∧ t.cycles ≤ s.cycles + n ∧ (t.status = .running → t.cycles = s.cycles + n)

/-- Rate-limiting a run changes nothing: a run of `n` cycles that is still RUNNING, followed by a run of `m`, is a run of
`n + m` (40_engine_cycle.md R132, decision D20). -/
def Obligations.RunsCompose : Prop :=
  ∀ (n m : Nat) (s t : State), run n s = .next t → t.status = .running → run (n + m) s = run m t

/-- `run(∞)` returns exactly what the first budget that reaches a stop returns (40_engine_cycle.md R132, R143): never RUNNING
(90_conflicts.md C2). The fuel is log 7. -/
def Obligations.RunToStopIsTheFirstBudgetThatStops : Prop :=
  ∀ (fuel : Nat) (s t : State),
    runToStop (fuel + 1) s = .next t ↔
      t.status ≠ .running ∧ ∃ n, 1 ≤ n ∧ n ≤ fuel + 1 ∧ run n s = .next t

/-- A breakpoint stops the machine once, then the instruction executes; coming back to the same `pc` stops it again
(40_engine_cycle.md R141 (a), (b), (d), R142, which the spec derives; 90_conflicts.md C6). -/
def Obligations.BreakpointStopsOnceThenExecutes : Prop :=
  ∀ (s : State) (i : Instr), s.status = .running → s.pc ∈ s.bps → Legal s.cfg s.pc →
    decode (s.mem.read s.pc.toNat) = .ok i →
    run 1 s = .next { s with status := .atBreakpoint } ∧
    run 1 { s with status := .atBreakpoint } = exec i s ∧
    ∀ t, exec i s = .next t → t.status = .running → t.pc = s.pc →
      run 1 t = .next { t with status := .atBreakpoint }

/-- A suspended IN is retried when input comes: the same instruction, at the same target, takes the value pushed, and the wait
cost one counted cycle (42_io.md R170, 40_engine_cycle.md R133, R138, 70_reset_and_hazards.md R268, decisions D21, D22, D35). -/
def Obligations.SuspendedInputResumes : Prop :=
  ∀ (s : State) (m1 m2 m3 : Mode) (t : Int) (v : Int),
    s.status = .running → s.pc ∉ s.bps → s.inq = [] → Legal s.cfg s.pc →
    decode (s.mem.read s.pc.toNat) = .ok (.inp m1 m2 m3) → writeAddress s 1 m1 = .ok t →
    InRange s.pc → InRange (s.pc + 2) → InRange v →
    ∃ u w, step s = .next u ∧ u = { s with status := .waitingForInput, cycles := s.cycles + 1 } ∧
      step u = .next u ∧ pushInput v u = .next w ∧
      step w = .next { s with mem := s.mem.write t.toNat v, pc := s.pc + 2, cycles := s.cycles + 2 }

/-! ### The host's operations -/

/-- R139: both operations are idempotent, add and remove exactly their address, and change nothing else. -/
def Obligations.BreakpointSetOperations : Prop :=
  ∀ (a : Int) (s : State),
    (∀ b, b ∈ (setBreakpoint a s).bps ↔ b = a ∨ b ∈ s.bps) ∧
    (∀ b, b ∈ (clearBreakpoint a s).bps ↔ b ≠ a ∧ b ∈ s.bps) ∧
    setBreakpoint a (setBreakpoint a s) = setBreakpoint a s ∧
    clearBreakpoint a (clearBreakpoint a s) = clearBreakpoint a s ∧
    setBreakpoint a s = { s with bps := (setBreakpoint a s).bps } ∧
    clearBreakpoint a s = { s with bps := (clearBreakpoint a s).bps }

/-- Input is appended at the tail, in every status and with nothing else changed; `provide_input_and_run` also leaves
WAITING_FOR_INPUT and runs; a value that is no word is refused (40_engine_cycle.md R135, R138, 70_reset_and_hazards.md R261,
decisions D21, D22, D30). -/
def Obligations.InputOperations : Prop :=
  ∀ (v : Int) (s : State),
    (InRange v → pushInput v s = .next { s with inq := s.inq ++ [v] }) ∧
    (InRange v → ∀ fuel, s.status = .waitingForInput → provideInputAndRun fuel v s =
      runToStop fuel { s with inq := s.inq ++ [v], status := .running }) ∧
    (InRange v → ∀ fuel, s.status ≠ .waitingForInput → provideInputAndRun fuel v s =
      runToStop fuel { s with inq := s.inq ++ [v] }) ∧
    (¬ InRange v → pushInput v s = .refused .inputOutOfRange ∧
      ∀ fuel, provideInputAndRun fuel v s = .refused .inputOutOfRange)

/-- R140: the host cannot write the machine's registers or memory, cannot remove or reorder input, and cannot move a machine
out of HALTED or FAULTED. Cycles run only inside `run` and `provide_input_and_run`; of the latter, the host's own part is
`provideInput`. -/
def Obligations.HostCannotWriteTheMachine : Prop :=
  (∀ (op : HostOp) (s t : State),
    (∃ v, op = .pushInput v) ∨ (∃ a, op = .setBreakpoint a) ∨ (∃ a, op = .clearBreakpoint a) ∨ op = .saveSnapshot →
    applyHostOp op s = .next t →
    t.mem = s.mem ∧ t.pc = s.pc ∧ t.rb = s.rb ∧ t.cycles = s.cycles ∧ t.lastOut = s.lastOut ∧ t.outlog = s.outlog ∧
    t.fault = s.fault ∧ t.status = s.status ∧ s.inq <+: t.inq) ∧
  (∀ (v : Int) (s : State), provideInput v s =
    { s with inq := s.inq ++ [v], status := (if s.status = .waitingForInput then .running else s.status) }) ∧
  (∀ (op : HostOp) (s t : State), s.status = .halted ∨ s.status = .faulted → applyHostOp op s = .next t →
    t.status = s.status)

/-- R35 and R240: the snapshot is written by construction and `save_snapshot` only, as a copy of memory, and no instruction
reads or writes it. -/
def Obligations.SnapshotWrittenOnlyByTheHost : Prop :=
  (∀ (program input : List Int) (policy : Policy) (s : State), construct program input policy = .next s →
    s.snap = s.mem) ∧
  (∀ s : State, saveSnapshot s = { s with snap := s.mem }) ∧
  (∀ (i : Instr) (s t : State) (n : Memory), exec i s = .next t →
    t.snap = s.snap ∧ exec i { s with snap := n } = .next { t with snap := n }) ∧
  (∀ (op : HostOp) (s t : State), applyHostOp op s = .next t → op ≠ .saveSnapshot → t.snap = s.snap)

/-- The diff lists, in increasing address order, exactly the addresses whose words differ, with the old and the new word; right
after `save_snapshot` it is empty (60_exceptions.md R241, decision D26). -/
def Obligations.SnapshotDiffIsExact : Prop :=
  ∀ s : State,
    (∀ (a : Nat) (old new : Int), (a, old, new) ∈ snapshotDiff s ↔
      Legal s.cfg a ∧ old = s.snap.read a ∧ new = s.mem.read a ∧ old ≠ new) ∧
    ((snapshotDiff s).map Prod.fst).Pairwise (· < ·) ∧
    snapshotDiff (saveSnapshot s) = []

/-- The state after construction, element by element (70_reset_and_hazards.md R262, R263, decisions D7 to D11), and the refusal
of values that are no words (R261, decision D30). `State.reset` is the machine constructed with the empty program, no input and
the policy `Unbounded`, the model's choice (log 3). -/
def Obligations.ConstructedMachine : Prop :=
  (∀ (program input : List Int) (policy : Policy), AllWords program → AllWords input →
    ∃ s, construct program input policy = .next s ∧
      (∀ (i : Nat) (h : i < program.length), s.mem.read i = program[i]) ∧
      (∀ i : Nat, program.length ≤ i → s.mem.read i = 0) ∧
      s.mem.wf = true ∧ s.pc = 0 ∧ s.rb = 0 ∧ s.status = .running ∧ s.inq = input ∧ s.lastOut = none ∧
      s.outlog = [] ∧ s.bps = [] ∧ s.cycles = 0 ∧ s.fault = none ∧ s.snap = s.mem ∧
      s.cfg.policy = policy ∧ s.cfg.len = program.length) ∧
  (∀ (program input : List Int) (policy : Policy), ¬ (AllWords program ∧ AllWords input) →
    construct program input policy = .refused .constructionOutOfRange) ∧
  construct [] [] .unbounded = .next State.reset

/-- The configuration is fixed for the life of a machine: no host operation, no cycle changes it (10_state.md R22). -/
def Obligations.ConfigurationNeverChanges : Prop :=
  ∀ (ops : List HostOp) (s t : State), applyHostOps ops s = .next t → t.cfg = s.cfg

/-! ### The invariant -/

/-- The state after reset meets the invariant (`State.reset` is log 3). -/
def Obligations.ResetMeetsTheInvariant : Prop := StateInv State.reset

/-- Every step keeps the invariant: memory and snapshot stay canonical, in bounds and in range, `pc` stays in `[0, WMAX]`, `rb`,
the queue and the log stay words, `last_out` is the last of the log, the breakpoint set stays a set, and a fault record is
held exactly in FAULTED, well-formed and at the `pc` (10_state.md R22, R23, R26, R31, R33, R36). The canonical forms are log
entries 1, 11 and 12. -/
def Obligations.StepKeepsTheInvariant : Prop :=
  ∀ s t : State, StateInv s → step s = .next t → StateInv t

/-- Whatever program a host constructs and whatever it then does, the machine meets the invariant (40_engine_cycle.md R136,
70_reset_and_hazards.md R262). -/
def Obligations.ReachableStatesMeetTheInvariant : Prop :=
  ∀ s : State, Reachable s → StateInv s

/-- The invariant holds of every machine a host constructs, and every host operation keeps it, from every state that meets it,
cycles included (40_engine_cycle.md R136, 70_reset_and_hazards.md R262; the canonical forms are log entries 1, 11 and 12). -/
def Obligations.HostOperationsKeepTheInvariant : Prop :=
  (∀ (program input : List Int) (policy : Policy) (s : State), construct program input policy = .next s → StateInv s) ∧
  (∀ (op : HostOp) (s t : State), StateInv s → applyHostOp op s = .next t → StateInv t)
end

