-- ==== Sys2Proof/Laws/Memory.lean ====
section
/-! SUPPORT. The laws of memory as data: read after write, and that every memory operation keeps the canonical form, the
word range and the bound (20_memory.md R52 to R56). -/

namespace Sys2Proof.Machine

theorem wfFrom_weaken {lo lo' : Nat} (h : lo ≤ lo') : ∀ {m : Memory}, Memory.wfFrom lo' m = true → Memory.wfFrom lo m = true
  | [], _ => rfl
  | (_, _) :: _, hm => by
    simp only [Memory.wfFrom, Bool.and_eq_true, decide_eq_true_eq] at hm ⊢
    exact ⟨⟨by omega, hm.1.2⟩, hm.2⟩

/-- Below the least address a memory may list, it reads as unlisted. -/
theorem read_below {lo a : Nat} (h : a < lo) : ∀ {m : Memory}, Memory.wfFrom lo m = true → Memory.read m a = unlistedWord
  | [], _ => rfl
  | (k, w) :: _, hm => by
    simp only [Memory.wfFrom, Bool.and_eq_true, decide_eq_true_eq] at hm
    simp [Memory.read, show a < k by omega]

theorem read_write_same_from {lo a : Nat} {v : Int} : ∀ {m : Memory}, Memory.wfFrom lo m = true →
    Memory.read (Memory.write m a v) a = v
  | [], _ => by
    by_cases hv : v = unlistedWord <;> simp [Memory.write, Memory.read, hv]
  | (k, w) :: rest, hm => by
    simp only [Memory.wfFrom, Bool.and_eq_true, decide_eq_true_eq] at hm
    rcases Nat.lt_trichotomy a k with h | h | h
    · by_cases hv : v = unlistedWord <;> simp [Memory.write, Memory.read, h, hv]
    · subst h
      by_cases hv : v = unlistedWord
      · simp [Memory.write, hv, read_below (Nat.lt_succ_self a) hm.2]
      · simp [Memory.write, Memory.read, hv]
    · simp [Memory.write, Memory.read, Nat.lt_asymm h, Nat.ne_of_gt h, read_write_same_from hm.2]

theorem read_write_other_from {lo a b : Nat} {v : Int} (hab : b ≠ a) : ∀ {m : Memory}, Memory.wfFrom lo m = true →
    Memory.read (Memory.write m a v) b = Memory.read m b
  | [], _ => by
    by_cases hv : v = unlistedWord <;> simp [Memory.write, Memory.read, hv, hab]
  | (k, w) :: rest, hm => by
    simp only [Memory.wfFrom, Bool.and_eq_true, decide_eq_true_eq] at hm
    rcases Nat.lt_trichotomy a k with h | h | h
    · by_cases hv : v = unlistedWord
      · simp [Memory.write, h, hv]
      · by_cases hb : b < a
        · simp [Memory.write, Memory.read, h, hv, hb, show b < k by omega]
        · simp [Memory.write, Memory.read, h, hv, hb, hab]
    · subst h
      by_cases hv : v = unlistedWord
      · by_cases hb : b < a
        · simp [Memory.write, Memory.read, hv, hb, read_below (show b < a + 1 by omega) hm.2]
        · simp [Memory.write, Memory.read, hv, hb, hab]
      · simp [Memory.write, Memory.read, hv, hab]
    · by_cases hb : b < k
      · simp [Memory.write, Memory.read, Nat.lt_asymm h, Nat.ne_of_gt h, hb]
      · by_cases hk : b = k <;>
          simp [Memory.write, Memory.read, Nat.lt_asymm h, Nat.ne_of_gt h, hb, hk, read_write_other_from hab hm.2]

theorem write_wfFrom {lo a : Nat} {v : Int} (ha : lo ≤ a) : ∀ {m : Memory}, Memory.wfFrom lo m = true →
    Memory.wfFrom lo (Memory.write m a v) = true
  | [], _ => by
    by_cases hv : v = unlistedWord <;> simp [Memory.write, Memory.wfFrom, hv, ha]
  | (k, w) :: rest, hm => by
    have hm' := hm
    simp only [Memory.wfFrom, Bool.and_eq_true, decide_eq_true_eq] at hm
    rcases Nat.lt_trichotomy a k with h | h | h
    · by_cases hv : v = unlistedWord
      · simpa [Memory.write, h, hv] using hm'
      · simp [Memory.write, Memory.wfFrom, h, hv, ha, hm.1.2, hm.2, show a + 1 ≤ k by omega]
    · subst h
      by_cases hv : v = unlistedWord
      · simpa [Memory.write, hv] using wfFrom_weaken (show lo ≤ a + 1 by omega) hm.2
      · simp [Memory.write, Memory.wfFrom, hv, ha, hm.2]
    · simp [Memory.write, Memory.wfFrom, Nat.lt_asymm h, Nat.ne_of_gt h, hm.1.1, hm.1.2,
        write_wfFrom (show k + 1 ≤ a by omega) hm.2]

/-- A read after a write to the same address gives the value written. -/
theorem read_write_same {m : Memory} (h : m.wf = true) (a : Nat) (v : Int) : (m.write a v).read a = v :=
  read_write_same_from h

/-- A write leaves every other address alone. -/
theorem read_write_other {m : Memory} (h : m.wf = true) {a b : Nat} (v : Int) (hab : b ≠ a) :
    (m.write a v).read b = m.read b := read_write_other_from hab h

/-- A write keeps the canonical form. -/
theorem write_wf {m : Memory} (h : m.wf = true) (a : Nat) (v : Int) : (m.write a v).wf = true :=
  write_wfFrom (Nat.zero_le a) h

/-- Every entry after a write is an old entry or the one written. -/
theorem mem_write {m : Memory} {a : Nat} {v : Int} {p : Nat × Int} (hp : p ∈ m.write a v) : p ∈ m ∨ p = (a, v) := by
  induction m with
  | nil =>
    by_cases hv : v = unlistedWord <;> simp_all [Memory.write]
  | cons kw rest ih =>
    obtain ⟨k, w⟩ := kw
    simp only [Memory.write] at hp
    split_ifs at hp <;> simp only [List.mem_cons] at hp ⊢ <;> grind

/-- A read gives 0 or a listed word. -/
theorem read_mem (m : Memory) (a : Nat) : m.read a = unlistedWord ∨ (a, m.read a) ∈ m := by
  induction m with
  | nil => exact .inl rfl
  | cons kw rest ih =>
    obtain ⟨k, w⟩ := kw
    simp only [Memory.read]
    split_ifs with h1 h2
    · exact .inl rfl
    · subst h2; exact .inr (by simp)
    · exact ih.imp id (fun h => List.mem_cons_of_mem _ h)

/-- A read of a sound memory gives a word in range. -/
theorem MemOk.read_inRange {c : Config} {m : Memory} (h : MemOk c m) (a : Nat) : InRange (m.read a) := by
  rcases read_mem m a with h0 | h1
  · rw [h0]; decide
  · exact h.wordsInRange _ h1

/-- Writing a word at a legal address keeps a memory sound. -/
theorem MemOk.write {c : Config} {m : Memory} (h : MemOk c m) {a : Int} {v : Int} (ha : Legal c a) (hv : InRange v) :
    MemOk c (m.write a.toNat v) where
  canonical := write_wf h.canonical _ _
  wordsInRange p hp := by
    rcases mem_write hp with h1 | rfl
    · exact h.wordsInRange p h1
    · exact hv
  inBounds hb p hp := by
    rcases mem_write hp with h1 | rfl
    · exact h.inBounds hb p h1
    · have := ha.2.resolve_left (by rw [hb]; decide)
      have := ha.1
      show a.toNat < c.len
      omega

theorem ofWords_wfFrom (ws : List Int) : ∀ a : Nat, Memory.wfFrom a (Memory.ofWords a ws) = true := by
  induction ws with
  | nil => intro a; rfl
  | cons w rest ih =>
    intro a
    by_cases hw : w = unlistedWord
    · simpa [Memory.ofWords, hw] using wfFrom_weaken (Nat.le_succ a) (ih (a + 1))
    · simp [Memory.ofWords, hw, Memory.wfFrom, ih (a + 1)]

/-- The entries of a program image lie inside the image and hold program words. -/
theorem mem_ofWords {ws : List Int} {p : Nat × Int} : ∀ {a : Nat}, p ∈ Memory.ofWords a ws →
    p.1 < a + ws.length ∧ p.2 ∈ ws := by
  induction ws with
  | nil => intro a hp; simp [Memory.ofWords] at hp
  | cons w rest ih =>
    intro a hp
    by_cases hw : w = unlistedWord
    · simp only [Memory.ofWords, hw, if_true] at hp
      have := ih hp
      exact ⟨by simp only [List.length_cons]; omega, List.mem_cons_of_mem _ this.2⟩
    · simp only [Memory.ofWords, hw, if_false, List.mem_cons] at hp
      rcases hp with rfl | hp
      · simp
      · have := ih hp
        exact ⟨by simp only [List.length_cons]; omega, List.mem_cons_of_mem _ this.2⟩

/-- The program image is a sound memory under either policy. -/
theorem ofWords_memOk {ws : List Int} (h : AllWords ws) (policy : Policy) :
    MemOk { policy := policy, len := ws.length } (Memory.ofWords 0 ws) where
  canonical := ofWords_wfFrom ws 0
  wordsInRange p hp := h p.2 (mem_ofWords hp).2
  inBounds _ p hp := by simpa using (mem_ofWords hp).1

end Sys2Proof.Machine
end

