-- ==== Sys2Proof/Laws/State.lean ====
section
/-! SUPPORT. One lemma per field for each update of the state: what a fault, a commit and the host's updates write, and
what they leave alone. -/

namespace Sys2Proof.Machine

section takeFault
variable (s : State) (f : FaultRecord)
@[simp] theorem takeFault_cfg : (takeFault s f).cfg = s.cfg := rfl
@[simp] theorem takeFault_mem : (takeFault s f).mem = s.mem := rfl
@[simp] theorem takeFault_pc : (takeFault s f).pc = s.pc := rfl
@[simp] theorem takeFault_rb : (takeFault s f).rb = s.rb := rfl
@[simp] theorem takeFault_status : (takeFault s f).status = .faulted := rfl
@[simp] theorem takeFault_inq : (takeFault s f).inq = s.inq := rfl
@[simp] theorem takeFault_lastOut : (takeFault s f).lastOut = s.lastOut := rfl
@[simp] theorem takeFault_outlog : (takeFault s f).outlog = s.outlog := rfl
@[simp] theorem takeFault_bps : (takeFault s f).bps = s.bps := rfl
@[simp] theorem takeFault_cycles : (takeFault s f).cycles = s.cycles := rfl
@[simp] theorem takeFault_fault : (takeFault s f).fault = some f := rfl
@[simp] theorem takeFault_snap : (takeFault s f).snap = s.snap := rfl
end takeFault

section commit
variable (s : State) (e : Effect) (npc : Int)
@[simp] theorem commit_cfg : (commit s e npc).cfg = s.cfg := rfl
@[simp] theorem commit_mem : (commit s e npc).mem =
    (match e.write with | some (t, v) => s.mem.write t.toNat v | none => s.mem) := rfl
@[simp] theorem commit_pc : (commit s e npc).pc = npc := rfl
@[simp] theorem commit_rb : (commit s e npc).rb = e.newRb.getD s.rb := by cases h : e.newRb <;> simp [commit, h]
@[simp] theorem commit_status : (commit s e npc).status = e.newStatus.getD s.status := by
  cases h : e.newStatus <;> simp [commit, h]
@[simp] theorem commit_inq : (commit s e npc).inq = (if e.pop then s.inq.tail else s.inq) := rfl
@[simp] theorem commit_lastOut : (commit s e npc).lastOut = e.emit.or s.lastOut := by
  cases h : e.emit <;> simp [commit, emitOutput, h]
@[simp] theorem commit_outlog : (commit s e npc).outlog = s.outlog ++ e.emit.toList := by
  cases h : e.emit <;> simp [commit, emitOutput, h]
@[simp] theorem commit_bps : (commit s e npc).bps = s.bps := rfl
@[simp] theorem commit_cycles : (commit s e npc).cycles = s.cycles + 1 := rfl
@[simp] theorem commit_fault : (commit s e npc).fault = s.fault := rfl
@[simp] theorem commit_snap : (commit s e npc).snap = s.snap := rfl
end commit

section provideInput
variable (v : Int) (s : State)
@[simp] theorem provideInput_cfg : (provideInput v s).cfg = s.cfg := rfl
@[simp] theorem provideInput_mem : (provideInput v s).mem = s.mem := rfl
@[simp] theorem provideInput_pc : (provideInput v s).pc = s.pc := rfl
@[simp] theorem provideInput_rb : (provideInput v s).rb = s.rb := rfl
@[simp] theorem provideInput_status : (provideInput v s).status =
    (if s.status = .waitingForInput then .running else s.status) := rfl
@[simp] theorem provideInput_inq : (provideInput v s).inq = s.inq ++ [v] := rfl
@[simp] theorem provideInput_lastOut : (provideInput v s).lastOut = s.lastOut := rfl
@[simp] theorem provideInput_outlog : (provideInput v s).outlog = s.outlog := rfl
@[simp] theorem provideInput_bps : (provideInput v s).bps = s.bps := rfl
@[simp] theorem provideInput_cycles : (provideInput v s).cycles = s.cycles := rfl
@[simp] theorem provideInput_fault : (provideInput v s).fault = s.fault := rfl
@[simp] theorem provideInput_snap : (provideInput v s).snap = s.snap := rfl
end provideInput

section breakpoints
variable (a : Int) (s : State)
@[simp] theorem setBreakpoint_cfg : (setBreakpoint a s).cfg = s.cfg := rfl
@[simp] theorem setBreakpoint_mem : (setBreakpoint a s).mem = s.mem := rfl
@[simp] theorem setBreakpoint_pc : (setBreakpoint a s).pc = s.pc := rfl
@[simp] theorem setBreakpoint_rb : (setBreakpoint a s).rb = s.rb := rfl
@[simp] theorem setBreakpoint_status : (setBreakpoint a s).status = s.status := rfl
@[simp] theorem setBreakpoint_inq : (setBreakpoint a s).inq = s.inq := rfl
@[simp] theorem setBreakpoint_lastOut : (setBreakpoint a s).lastOut = s.lastOut := rfl
@[simp] theorem setBreakpoint_outlog : (setBreakpoint a s).outlog = s.outlog := rfl
@[simp] theorem setBreakpoint_bps : (setBreakpoint a s).bps = bpsInsert a s.bps := rfl
@[simp] theorem setBreakpoint_cycles : (setBreakpoint a s).cycles = s.cycles := rfl
@[simp] theorem setBreakpoint_fault : (setBreakpoint a s).fault = s.fault := rfl
@[simp] theorem setBreakpoint_snap : (setBreakpoint a s).snap = s.snap := rfl
@[simp] theorem clearBreakpoint_cfg : (clearBreakpoint a s).cfg = s.cfg := rfl
@[simp] theorem clearBreakpoint_mem : (clearBreakpoint a s).mem = s.mem := rfl
@[simp] theorem clearBreakpoint_pc : (clearBreakpoint a s).pc = s.pc := rfl
@[simp] theorem clearBreakpoint_rb : (clearBreakpoint a s).rb = s.rb := rfl
@[simp] theorem clearBreakpoint_status : (clearBreakpoint a s).status = s.status := rfl
@[simp] theorem clearBreakpoint_inq : (clearBreakpoint a s).inq = s.inq := rfl
@[simp] theorem clearBreakpoint_lastOut : (clearBreakpoint a s).lastOut = s.lastOut := rfl
@[simp] theorem clearBreakpoint_outlog : (clearBreakpoint a s).outlog = s.outlog := rfl
@[simp] theorem clearBreakpoint_bps : (clearBreakpoint a s).bps = bpsErase a s.bps := rfl
@[simp] theorem clearBreakpoint_cycles : (clearBreakpoint a s).cycles = s.cycles := rfl
@[simp] theorem clearBreakpoint_fault : (clearBreakpoint a s).fault = s.fault := rfl
@[simp] theorem clearBreakpoint_snap : (clearBreakpoint a s).snap = s.snap := rfl
end breakpoints

section saveSnapshot
variable (s : State)
@[simp] theorem saveSnapshot_cfg : (saveSnapshot s).cfg = s.cfg := rfl
@[simp] theorem saveSnapshot_mem : (saveSnapshot s).mem = s.mem := rfl
@[simp] theorem saveSnapshot_pc : (saveSnapshot s).pc = s.pc := rfl
@[simp] theorem saveSnapshot_rb : (saveSnapshot s).rb = s.rb := rfl
@[simp] theorem saveSnapshot_status : (saveSnapshot s).status = s.status := rfl
@[simp] theorem saveSnapshot_inq : (saveSnapshot s).inq = s.inq := rfl
@[simp] theorem saveSnapshot_lastOut : (saveSnapshot s).lastOut = s.lastOut := rfl
@[simp] theorem saveSnapshot_outlog : (saveSnapshot s).outlog = s.outlog := rfl
@[simp] theorem saveSnapshot_bps : (saveSnapshot s).bps = s.bps := rfl
@[simp] theorem saveSnapshot_cycles : (saveSnapshot s).cycles = s.cycles := rfl
@[simp] theorem saveSnapshot_fault : (saveSnapshot s).fault = s.fault := rfl
@[simp] theorem saveSnapshot_snap : (saveSnapshot s).snap = s.mem := rfl
end saveSnapshot

end Sys2Proof.Machine
end

