-- ==== Sys2Proof/Laws/Ops.lean ====
section
/-! SUPPORT. One specification lemma per shared operation: what each check, operand form and the end of a cycle can answer.
Later proofs cite these and do not unfold the operations. -/

namespace Sys2Proof.Machine

@[simp] theorem ok_bind {ε α β : Type} (a : α) (f : α → Except ε β) : ((Except.ok a : Except ε α) >>= f) = f a := rfl
@[simp] theorem error_bind {ε α β : Type} (e : ε) (f : α → Except ε β) :
    ((Except.error e : Except ε α) >>= f) = .error e := rfl

theorem bind_eq_ok {ε α β : Type} {x : Except ε α} {f : α → Except ε β} {b : β} :
    (x >>= f) = .ok b ↔ ∃ a, x = .ok a ∧ f a = .ok b := by cases x <;> simp

theorem bind_eq_error {ε α β : Type} {x : Except ε α} {f : α → Except ε β} {e : ε} :
    (x >>= f) = .error e ↔ x = .error e ∨ ∃ a, x = .ok a ∧ f a = .error e := by cases x <;> simp

/-- A check that passes its value on or raises: when it passes. -/
theorem check_eq_ok {ε α : Type} {p : Prop} [Decidable p] {a x : α} {e : ε} :
    (if p then Except.ok a else .error e) = .ok x ↔ p ∧ x = a := by split <;> simp_all [eq_comm]

/-- A check that passes its value on or raises: when it raises. -/
theorem check_eq_error {ε α : Type} {p : Prop} [Decidable p] {a : α} {e f : ε} :
    (if p then Except.ok a else .error e) = .error f ↔ ¬ p ∧ f = e := by split <;> simp_all [eq_comm]

theorem chk_eq_ok {s : State} {v : Int} {w : Int} : chk s v = .ok w ↔ InRange v ∧ w = v := check_eq_ok

theorem chk_eq_error {s : State} {v : Int} {f : FaultRecord} : chk s v = .error f ↔ ¬ InRange v ∧ f = rangeFault s.pc := check_eq_error

theorem chk_of_inRange {s : State} {v : Int} (h : InRange v) : chk s v = .ok v := chk_eq_ok.2 ⟨h, rfl⟩

theorem checkAddr_eq_ok {s : State} {a t : Int} : checkAddr s a = .ok t ↔ Legal s.cfg a ∧ t = a := check_eq_ok

theorem checkAddr_eq_error {s : State} {a : Int} {f : FaultRecord} :
    checkAddr s a = .error f ↔ ¬ Legal s.cfg a ∧ f = addressFault s.pc a := check_eq_error

theorem memRead_eq_ok {s : State} {a : Int} {w : Int} :
    memRead s a = .ok w ↔ Legal s.cfg a ∧ w = s.mem.read a.toNat := check_eq_ok

theorem memRead_eq_error {s : State} {a : Int} {f : FaultRecord} :
    memRead s a = .error f ↔ ¬ Legal s.cfg a ∧ f = addressFault s.pc a := check_eq_error

/-! ### What a raised record says -/

/-- A record raised while an instruction is evaluated in `s`: it names the `pc` of `s`, has the fields of its kind, and an
address it records is offending (60_exceptions.md R221, R224). -/
structure Raised (s : State) (f : FaultRecord) : Prop where
  atPc : f.pc = s.pc
  shape : f.wellShaped = true
  offending : ∀ a, f.addr = some a → ¬ Legal s.cfg a

theorem raised_rangeFault (s : State) : Raised s (rangeFault s.pc) :=
  ⟨rfl, rfl, by simp [rangeFault]⟩

theorem raised_unknownOpcodeFault (s : State) (r : Reason) : Raised s (unknownOpcodeFault s.pc r) :=
  ⟨rfl, rfl, by simp [unknownOpcodeFault]⟩

theorem raised_addressFault {s : State} {a : Int} (h : ¬ Legal s.cfg a) : Raised s (addressFault s.pc a) :=
  ⟨rfl, rfl, by simpa [addressFault] using h⟩

theorem chk_raised {s : State} {v : Int} {f : FaultRecord} (h : chk s v = .error f) : Raised s f := by
  obtain ⟨_, rfl⟩ := chk_eq_error.1 h; exact raised_rangeFault s

theorem memRead_raised {s : State} {a : Int} {f : FaultRecord} (h : memRead s a = .error f) : Raised s f := by
  obtain ⟨hl, rfl⟩ := memRead_eq_error.1 h; exact raised_addressFault hl

theorem checkAddr_raised {s : State} {a : Int} {f : FaultRecord} (h : checkAddr s a = .error f) : Raised s f := by
  obtain ⟨hl, rfl⟩ := checkAddr_eq_error.1 h; exact raised_addressFault hl

theorem rawParam_raised {s : State} {k : Nat} {f : FaultRecord} (h : rawParam s k = .error f) : Raised s f := by
  rcases bind_eq_error.1 h with h | ⟨_, _, h⟩
  · exact chk_raised h
  · exact memRead_raised h

theorem relativeAddr_raised {s : State} {raw : Int} {f : FaultRecord} (h : relativeAddr s raw = .error f) : Raised s f :=
  chk_raised h

theorem readOperand_raised {s : State} {k : Nat} {m : Mode} {f : FaultRecord} (h : readOperand s k m = .error f) :
    Raised s f := by
  cases m with
  | undefined d => cases h; exact raised_unknownOpcodeFault s .mode
  | immediate => exact rawParam_raised h
  | position =>
    rcases bind_eq_error.1 h with h | ⟨_, _, h⟩
    · exact rawParam_raised h
    · exact memRead_raised h
  | relative =>
    rcases bind_eq_error.1 h with h | ⟨_, _, h⟩
    · exact rawParam_raised h
    · rcases bind_eq_error.1 h with h | ⟨_, _, h⟩
      · exact relativeAddr_raised h
      · exact memRead_raised h

theorem writeAddress_raised {s : State} {k : Nat} {m : Mode} {f : FaultRecord} (h : writeAddress s k m = .error f) :
    Raised s f := by
  cases m with
  | undefined d => cases h; exact raised_unknownOpcodeFault s .mode
  | immediate => cases h; exact raised_unknownOpcodeFault s .mode
  | position =>
    rcases bind_eq_error.1 h with h | ⟨_, _, h⟩
    · exact rawParam_raised h
    · exact checkAddr_raised h
  | relative =>
    rcases bind_eq_error.1 h with h | ⟨_, _, h⟩
    · exact rawParam_raised h
    · rcases bind_eq_error.1 h with h | ⟨_, _, h⟩
      · exact relativeAddr_raised h
      · exact checkAddr_raised h

/-! ### What an operand that resolves can be -/

/-- A target that resolves is a legal address (30_encoding.md R90). -/
theorem writeAddress_legal {s : State} {k : Nat} {m : Mode} {t : Int} (h : writeAddress s k m = .ok t) : Legal s.cfg t := by
  cases m with
  | undefined d => cases h
  | immediate => cases h
  | position =>
    obtain ⟨_, _, h⟩ := bind_eq_ok.1 h
    obtain ⟨h, rfl⟩ := checkAddr_eq_ok.1 h; exact h
  | relative =>
    obtain ⟨_, _, h⟩ := bind_eq_ok.1 h
    obtain ⟨_, _, h⟩ := bind_eq_ok.1 h
    obtain ⟨h, rfl⟩ := checkAddr_eq_ok.1 h; exact h

theorem memRead_inRange {s : State} (hm : MemOk s.cfg s.mem) {a : Int} {v : Int} (h : memRead s a = .ok v) : InRange v := by
  obtain ⟨_, rfl⟩ := memRead_eq_ok.1 h; exact hm.read_inRange _

theorem rawParam_inRange {s : State} (hm : MemOk s.cfg s.mem) {k : Nat} {v : Int} (h : rawParam s k = .ok v) :
    InRange v := by
  obtain ⟨_, _, h⟩ := bind_eq_ok.1 h; exact memRead_inRange hm h

/-- An operand read from a sound memory is a word. -/
theorem readOperand_inRange {s : State} (hm : MemOk s.cfg s.mem) {k : Nat} {m : Mode} {v : Int}
    (h : readOperand s k m = .ok v) : InRange v := by
  cases m with
  | undefined d => cases h
  | immediate => exact rawParam_inRange hm h
  | position =>
    obtain ⟨_, _, h⟩ := bind_eq_ok.1 h; exact memRead_inRange hm h
  | relative =>
    obtain ⟨_, _, h⟩ := bind_eq_ok.1 h
    obtain ⟨_, _, h⟩ := bind_eq_ok.1 h
    exact memRead_inRange hm h

/-! ### The next pc and the end of a cycle -/

@[simp] theorem nextPc_jump (s : State) (t : Int) : nextPc s (.jump t) = .ok t := rfl

theorem nextPc_delta_eq_ok {s : State} {d : Nat} {p : Int} :
    nextPc s (.delta d) = .ok p ↔ InRange (s.pc + d) ∧ p = s.pc + d := chk_eq_ok

theorem nextPc_raised {s : State} {n : Next} {f : FaultRecord} (h : nextPc s n = .error f) : Raised s f := by
  cases n with
  | delta d => exact chk_raised h
  | jump t => cases h

/-- The two ways a cycle ends (40_engine_cycle.md R125 to R130): a fault is taken, or the effect is committed. -/
theorem finish_cases {s t : State} {r : Except FaultRecord Effect} (h : finish s r = .next t) :
    (∃ f, (r = .error f ∨ ∃ e, r = .ok e ∧ nextPc s e.next = .error f) ∧ t = takeFault s f) ∨
    (∃ e npc, r = .ok e ∧ nextPc s e.next = .ok npc ∧ t = commit s e npc) := by
  unfold finish at h
  split at h
  · exact .inl ⟨_, .inl rfl, by cases h; rfl⟩
  · split at h
    · rename_i e _ f hf; exact .inl ⟨f, .inr ⟨e, rfl, hf⟩, by cases h; rfl⟩
    · rename_i e _ npc hp; exact .inr ⟨e, npc, rfl, hp, by cases h; rfl⟩

@[simp] theorem finish_error (s : State) (f : FaultRecord) : finish s (.error f) = .next (takeFault s f) := rfl

theorem finish_ok {s : State} {e : Effect} {npc : Int} (h : nextPc s e.next = .ok npc) :
    finish s (.ok e) = .next (commit s e npc) := by simp [finish, h]

theorem finish_next (s : State) (r : Except FaultRecord Effect) : ∃ t, finish s r = .next t := by
  unfold finish; split
  · exact ⟨_, rfl⟩
  · split <;> exact ⟨_, rfl⟩

end Sys2Proof.Machine
end

