-- ==== Sys2Proof/Laws/Breakpoints.lean ====
section
/-! SUPPORT. The breakpoint list keeps its canonical form, and so do the address lists of the diff. -/

namespace Sys2Proof.Machine

theorem bpsWf_iff {l : List Int} : bpsWf l = true ↔ l.Pairwise (· < ·) := by simp [bpsWf]

/-- The members of a list after an insertion (used for the canonical form). -/
theorem lt_of_mem_bpsInsert {a c : Int} {l : List Int} (hc : c < a) (h : ∀ b ∈ l, c < b) : ∀ b ∈ bpsInsert a l, c < b := by
  induction l with
  | nil => simpa [bpsInsert] using hc
  | cons x rest ih =>
    intro b hb
    simp only [bpsInsert] at hb
    split_ifs at hb with h1 h2
    · rcases List.mem_cons.1 hb with rfl | hb
      · exact hc
      · exact h b hb
    · exact h b hb
    · rcases List.mem_cons.1 hb with rfl | hb
      · exact h _ (by simp)
      · exact ih (fun b hb => h b (List.mem_cons_of_mem _ hb)) b hb

theorem bpsInsert_wf {l : List Int} (h : bpsWf l = true) (a : Int) : bpsWf (bpsInsert a l) = true := by
  rw [bpsWf_iff] at h ⊢
  induction l with
  | nil => simp [bpsInsert]
  | cons x rest ih =>
    obtain ⟨hx, hr⟩ := List.pairwise_cons.1 h
    simp only [bpsInsert]
    split_ifs with h1 h2
    · refine List.pairwise_cons.2 ⟨?_, h⟩
      intro b hb
      rcases List.mem_cons.1 hb with rfl | hb
      · exact h1
      · exact lt_trans h1 (hx b hb)
    · exact h
    · exact List.pairwise_cons.2 ⟨lt_of_mem_bpsInsert (by omega) hx, ih hr⟩

theorem bpsErase_sublist (a : Int) (l : List Int) : (bpsErase a l).Sublist l := by
  induction l with
  | nil => exact .slnil
  | cons x rest ih =>
    simp only [bpsErase]
    split_ifs
    · exact ih.cons _
    · exact ih.cons_cons _

theorem bpsErase_wf {l : List Int} (h : bpsWf l = true) (a : Int) : bpsWf (bpsErase a l) = true := by
  rw [bpsWf_iff] at h ⊢
  exact h.sublist (bpsErase_sublist a l)

theorem lt_of_mem_addrInsert {a c : Nat} {l : List Nat} (hc : c < a) (h : ∀ b ∈ l, c < b) :
    ∀ b ∈ addrInsert a l, c < b := by
  induction l with
  | nil => simpa [addrInsert] using hc
  | cons x rest ih =>
    intro b hb
    simp only [addrInsert] at hb
    split_ifs at hb with h1 h2
    · rcases List.mem_cons.1 hb with rfl | hb
      · exact hc
      · exact h b hb
    · exact h b hb
    · rcases List.mem_cons.1 hb with rfl | hb
      · exact h _ (by simp)
      · exact ih (fun b hb => h b (List.mem_cons_of_mem _ hb)) b hb

/-- Putting an address into a rising list keeps it rising. -/
theorem addrInsert_rising {l : List Nat} (h : l.Pairwise (· < ·)) (a : Nat) : (addrInsert a l).Pairwise (· < ·) := by
  induction l with
  | nil => simp [addrInsert]
  | cons x rest ih =>
    obtain ⟨hx, hr⟩ := List.pairwise_cons.1 h
    simp only [addrInsert]
    split_ifs with h1 h2
    · refine List.pairwise_cons.2 ⟨?_, h⟩
      intro b hb
      rcases List.mem_cons.1 hb with rfl | hb
      · exact h1
      · exact lt_trans h1 (hx b hb)
    · exact h
    · exact List.pairwise_cons.2 ⟨lt_of_mem_addrInsert (by omega) hx, ih hr⟩

theorem mem_addrInsert {a b : Nat} {l : List Nat} : b ∈ addrInsert a l ↔ b = a ∨ b ∈ l := by
  induction l with
  | nil => simp [addrInsert]
  | cons x rest ih =>
    simp only [addrInsert]
    split_ifs with h1 h2
    · simp
    · subst h2; simp
    · simp only [List.mem_cons, ih]; tauto

end Sys2Proof.Machine
end

