-- ==== Sys2Proof/Laws/Decoding.lean ====
section
/-! SUPPORT. The digits of a canonical word and the modes they name (30_encoding.md R81, R98). -/

namespace Sys2Proof

theorem dig_lt (w i : Nat) : dig w i < 10 := Nat.mod_lt _ (by decide)

/-- A mode built from a digit is well-formed. -/
theorem ofDigit_wellFormed {d : Nat} (h : d < 10) : (Mode.ofDigit d).wellFormed = true := by
  interval_cases d <;> rfl

@[simp] theorem digit_ofDigit (d : Nat) : (Mode.ofDigit d).digit = d := by
  match d with
  | 0 => rfl
  | 1 => rfl
  | 2 => rfl
  | _ + 3 => rfl

/-- A well-formed mode is named by its digit. -/
theorem ofDigit_digit {m : Mode} (h : m.wellFormed = true) : Mode.ofDigit m.digit = m := by
  cases m with
  | position => rfl
  | immediate => rfl
  | relative => rfl
  | undefined d =>
    simp only [Mode.wellFormed, decide_eq_true_eq] at h
    obtain ⟨h1, h2⟩ := h
    interval_cases d <;> rfl

theorem digit_lt {m : Mode} (h : m.wellFormed = true) : m.digit < 10 := by
  cases m with
  | position => decide
  | immediate => decide
  | relative => decide
  | undefined d =>
    simp only [Mode.wellFormed, decide_eq_true_eq] at h
    exact Nat.lt_succ_of_le h.2

/-- The five decimal digits of a canonical word give it back. -/
theorem digits_compose {n : Nat} (h : n ≤ 99999) :
    n % 100 + 100 * dig n 2 + 1000 * dig n 3 + 10000 * dig n 4 = n := by
  simp only [dig]; omega

/-- The digits of a composed word are the ones it was composed from. -/
theorem compose_digits {op a b c : Nat} (ho : op < 100) (ha : a < 10) (hb : b < 10) (hc : c < 10) :
    (op + 100 * a + 1000 * b + 10000 * c) % 100 = op ∧ dig (op + 100 * a + 1000 * b + 10000 * c) 2 = a ∧
    dig (op + 100 * a + 1000 * b + 10000 * c) 3 = b ∧ dig (op + 100 * a + 1000 * b + 10000 * c) 4 = c ∧
    op + 100 * a + 1000 * b + 10000 * c ≤ 99999 := by
  simp only [dig]
  refine ⟨?_, ?_, ?_, ?_, ?_⟩ <;> omega

end Sys2Proof
end

