-- ==== Sys2Proof/Laws/Exec.lean ====
section
/-! SUPPORT. Every instruction is an evaluation followed by the one end of a cycle (40_engine_cycle.md R125 to R130); what
an evaluation can raise and what an effect can ask for. -/

namespace Sys2Proof.Machine

/-- The evaluation behind each meaning. -/
def evalOf (i : Instr) (s : State) : Except FaultRecord Effect :=
  match i with
  | .add m1 m2 m3 => evalBinary m1 m2 m3 (fun a b => chk s (a + b)) s
  | .mul m1 m2 m3 => evalBinary m1 m2 m3 (fun a b => chk s (a * b)) s
  | .inp m1 _ _ => evalIn m1 s
  | .out m1 _ _ => evalOut m1 s
  | .jnz m1 m2 _ => evalJump m1 m2 (fun a => !isZero a) s
  | .jz m1 m2 _ => evalJump m1 m2 isZero s
  | .lt m1 m2 m3 => evalBinary m1 m2 m3 (fun a b => .ok (truthWord (isLess a b))) s
  | .eq m1 m2 m3 => evalBinary m1 m2 m3 (fun a b => .ok (truthWord (isEqual a b))) s
  | .arb m1 _ _ => evalArb m1 s
  | .hlt _ _ _ => .ok { newStatus := some .halted, next := .delta 0 }

theorem exec_eq_finish (i : Instr) (s : State) : exec i s = finish s (evalOf i s) := by cases i <;> rfl

/-- Executing an instruction always answers a next state: a fault is taken, not answered. -/
theorem exec_next (i : Instr) (s : State) : ∃ t, exec i s = .next t := by
  rw [exec_eq_finish]; exact finish_next s _

/-! ### The evaluations, one lemma each: when they succeed, and with what effect -/

theorem evalBinary_eq_ok {m1 m2 m3 : Mode} {g : Int → Int → Except FaultRecord Int} {s : State} {e : Effect} :
    evalBinary m1 m2 m3 g s = .ok e ↔ ∃ a b t v, readOperand s 1 m1 = .ok a ∧ readOperand s 2 m2 = .ok b ∧
      writeAddress s 3 m3 = .ok t ∧ g a b = .ok v ∧ e = { write := some (t, v), next := .delta 4 } := by
  simp only [evalBinary, bind_eq_ok, pure, Except.pure, Except.ok.injEq]
  constructor
  · rintro ⟨a, ha, b, hb, t, ht, v, hv, rfl⟩; exact ⟨a, b, t, v, ha, hb, ht, hv, rfl⟩
  · rintro ⟨a, b, t, v, ha, hb, ht, hv, rfl⟩; exact ⟨a, ha, b, hb, t, ht, v, hv, rfl⟩

theorem evalBinary_raised {m1 m2 m3 : Mode} {g : Int → Int → Except FaultRecord Int} {s : State} {f : FaultRecord}
    (hg : ∀ a b, g a b = .error f → Raised s f) (h : evalBinary m1 m2 m3 g s = .error f) : Raised s f := by
  rcases bind_eq_error.1 h with h | ⟨_, _, h⟩
  · exact readOperand_raised h
  rcases bind_eq_error.1 h with h | ⟨_, _, h⟩
  · exact readOperand_raised h
  rcases bind_eq_error.1 h with h | ⟨_, _, h⟩
  · exact writeAddress_raised h
  rcases bind_eq_error.1 h with h | ⟨_, _, h⟩
  · exact hg _ _ h
  · cases h

theorem evalIn_eq_ok {m1 : Mode} {s : State} {e : Effect} :
    evalIn m1 s = .ok e ↔ ∃ t, writeAddress s 1 m1 = .ok t ∧
      ((s.inq = [] ∧ e = { newStatus := some .waitingForInput, next := .delta 0 }) ∨
       ∃ x rest, s.inq = x :: rest ∧ e = { write := some (t, x), pop := true, next := .delta 2 }) := by
  simp only [evalIn, bind_eq_ok, consumeInput]
  refine exists_congr fun t => and_congr_right fun _ => ?_
  cases s.inq <;> simp [pure, Except.pure, eq_comm]

theorem evalIn_raised {m1 : Mode} {s : State} {f : FaultRecord} (h : evalIn m1 s = .error f) : Raised s f := by
  rcases bind_eq_error.1 h with h | ⟨_, _, h⟩
  · exact writeAddress_raised h
  · revert h; cases consumeInput s <;> intro h <;> cases h

theorem evalOut_eq_ok {m1 : Mode} {s : State} {e : Effect} :
    evalOut m1 s = .ok e ↔ ∃ a, readOperand s 1 m1 = .ok a ∧ e = { emit := some a, next := .delta 2 } := by
  simp only [evalOut, bind_eq_ok, pure, Except.pure, Except.ok.injEq]
  exact exists_congr fun a => and_congr_right fun _ => eq_comm

theorem evalOut_raised {m1 : Mode} {s : State} {f : FaultRecord} (h : evalOut m1 s = .error f) : Raised s f := by
  rcases bind_eq_error.1 h with h | ⟨_, _, h⟩
  · exact readOperand_raised h
  · cases h

theorem evalJump_eq_ok {m1 m2 : Mode} {taken : Int → Bool} {s : State} {e : Effect} :
    evalJump m1 m2 taken s = .ok e ↔ ∃ a b, readOperand s 1 m1 = .ok a ∧ readOperand s 2 m2 = .ok b ∧
      ((taken a = true ∧ 0 ≤ b ∧ e = { next := .jump b }) ∨ (taken a = false ∧ e = { next := .delta 3 })) := by
  simp only [evalJump, bind_eq_ok]
  constructor
  · rintro ⟨a, ha, b, hb, h⟩
    refine ⟨a, b, ha, hb, ?_⟩
    split_ifs at h with h1 h2
    · exact .inl ⟨h1, not_lt.1 h2, (Except.ok.inj h).symm⟩
    · exact .inr ⟨by simpa using h1, (Except.ok.inj h).symm⟩
  · rintro ⟨a, b, ha, hb, ⟨h1, h2, rfl⟩ | ⟨h1, rfl⟩⟩
    · exact ⟨a, ha, b, hb, by simp [h1, not_lt.2 h2, pure, Except.pure]⟩
    · exact ⟨a, ha, b, hb, by simp [h1, pure, Except.pure]⟩

theorem evalJump_raised {m1 m2 : Mode} {taken : Int → Bool} {s : State} {f : FaultRecord}
    (h : evalJump m1 m2 taken s = .error f) : Raised s f := by
  rcases bind_eq_error.1 h with h | ⟨_, _, h⟩
  · exact readOperand_raised h
  rcases bind_eq_error.1 h with h | ⟨b, _, h⟩
  · exact readOperand_raised h
  split_ifs at h with h1 h2
  · cases h; exact raised_addressFault (fun hl => absurd hl.1 (not_le.2 h2))
  · cases h
  · cases h

theorem evalArb_eq_ok {m1 : Mode} {s : State} {e : Effect} :
    evalArb m1 s = .ok e ↔ ∃ a, readOperand s 1 m1 = .ok a ∧ InRange (s.rb + a) ∧
      e = { newRb := some (s.rb + a), next := .delta 2 } := by
  simp only [evalArb, bind_eq_ok, chk_eq_ok, pure, Except.pure, Except.ok.injEq]
  constructor
  · rintro ⟨a, ha, r, ⟨hr, rfl⟩, rfl⟩; exact ⟨a, ha, hr, rfl⟩
  · rintro ⟨a, ha, hr, rfl⟩; exact ⟨a, ha, _, ⟨hr, rfl⟩, rfl⟩

theorem evalArb_raised {m1 : Mode} {s : State} {f : FaultRecord} (h : evalArb m1 s = .error f) : Raised s f := by
  rcases bind_eq_error.1 h with h | ⟨_, _, h⟩
  · exact readOperand_raised h
  rcases bind_eq_error.1 h with h | ⟨_, _, h⟩
  · exact chk_raised h
  · cases h

/-- Whatever an evaluation raises names the `pc`, has its kind's fields, and names only an offending address. -/
theorem evalOf_raised {i : Instr} {s : State} {f : FaultRecord} (h : evalOf i s = .error f) : Raised s f := by
  cases i with
  | add m1 m2 m3 => exact evalBinary_raised (fun _ _ => chk_raised) h
  | mul m1 m2 m3 => exact evalBinary_raised (fun _ _ => chk_raised) h
  | inp m1 m2 m3 => exact evalIn_raised h
  | out m1 m2 m3 => exact evalOut_raised h
  | jnz m1 m2 m3 => exact evalJump_raised h
  | jz m1 m2 m3 => exact evalJump_raised h
  | lt m1 m2 m3 => exact evalBinary_raised (by intro _ _ h; cases h) h
  | eq m1 m2 m3 => exact evalBinary_raised (by intro _ _ h; cases h) h
  | arb m1 m2 m3 => exact evalArb_raised h
  | hlt m1 m2 m3 => cases h

/-- The two ways an instruction ends: a record is taken and nothing else changes, or an effect is committed. -/
theorem exec_cases {i : Instr} {s t : State} (h : exec i s = .next t) :
    (∃ f, Raised s f ∧ t = takeFault s f) ∨
    (∃ e npc, evalOf i s = .ok e ∧ nextPc s e.next = .ok npc ∧ t = commit s e npc) := by
  rw [exec_eq_finish] at h
  rcases finish_cases h with ⟨f, h1 | ⟨_, _, h1⟩, rfl⟩ | h
  · exact .inl ⟨f, evalOf_raised h1, rfl⟩
  · exact .inl ⟨f, nextPc_raised h1, rfl⟩
  · exact .inr h

/-- What the effect of an instruction can ask for in a sound state: a legal target, words, a jump to a word that is not
negative, and no status but HALTED and WAITING_FOR_INPUT. -/
structure EffectOk (s : State) (e : Effect) : Prop where
  target : ∀ t v, e.write = some (t, v) → Legal s.cfg t ∧ InRange v
  output : ∀ v, e.emit = some v → InRange v
  base : ∀ r, e.newRb = some r → InRange r
  jump : ∀ b, e.next = .jump b → 0 ≤ b ∧ InRange b
  status : ∀ st, e.newStatus = some st → st = .halted ∨ st = .waitingForInput

theorem truthWord_inRange (b : Bool) : InRange (truthWord b) := by cases b <;> decide

theorem evalOf_effectOk {i : Instr} {s : State} {e : Effect} (hm : MemOk s.cfg s.mem) (hq : AllWords s.inq)
    (h : evalOf i s = .ok e) : EffectOk s e := by
  have binary : ∀ {m1 m2 m3 g}, (∀ a b v, g a b = .ok v → InRange v) → evalBinary m1 m2 m3 g s = .ok e →
      EffectOk s e := by
    intro m1 m2 m3 g hg h
    obtain ⟨a, b, t, v, -, -, ht, hv, rfl⟩ := evalBinary_eq_ok.1 h
    constructor <;> simp
    exact ⟨writeAddress_legal ht, hg a b v hv⟩
  have jump : ∀ {m1 m2 taken}, evalJump m1 m2 taken s = .ok e → EffectOk s e := by
    intro m1 m2 taken h
    obtain ⟨a, b, -, hb, ⟨-, h0, rfl⟩ | ⟨-, rfl⟩⟩ := evalJump_eq_ok.1 h
    · constructor <;> simp
      exact ⟨h0, readOperand_inRange hm hb⟩
    · constructor <;> simp
  cases i with
  | add m1 m2 m3 => exact binary (fun a b v hv => by obtain ⟨h, rfl⟩ := chk_eq_ok.1 hv; exact h) h
  | mul m1 m2 m3 => exact binary (fun a b v hv => by obtain ⟨h, rfl⟩ := chk_eq_ok.1 hv; exact h) h
  | inp m1 m2 m3 =>
    obtain ⟨t, ht, ⟨-, rfl⟩ | ⟨x, rest, hx, rfl⟩⟩ := evalIn_eq_ok.1 h
    · constructor <;> simp
    · constructor <;> simp
      exact ⟨writeAddress_legal ht, hq x (by simp [hx])⟩
  | out m1 m2 m3 =>
    obtain ⟨a, ha, rfl⟩ := evalOut_eq_ok.1 h
    constructor <;> simp
    exact readOperand_inRange hm ha
  | jnz m1 m2 m3 => exact jump h
  | jz m1 m2 m3 => exact jump h
  | lt m1 m2 m3 => exact binary (fun a b v hv => by cases hv; exact truthWord_inRange _) h
  | eq m1 m2 m3 => exact binary (fun a b v hv => by cases hv; exact truthWord_inRange _) h
  | arb m1 m2 m3 =>
    obtain ⟨a, -, hr, rfl⟩ := evalArb_eq_ok.1 h
    constructor <;> simp
    exact hr
  | hlt m1 m2 m3 =>
    cases h
    constructor <;> simp

end Sys2Proof.Machine
end

