-- ==== Sys2Proof/Laws/Engine.lean ====
section
/-! SUPPORT. What one cycle, one run and one step can do (40_engine_cycle.md R120 to R133). -/

namespace Sys2Proof.Machine

/-- The two ways step 3 of a cycle ends: a record is taken, or an instruction that decodes is executed. -/
theorem fetchExecute_cases {s t : State} (h : fetchExecute s = .next t) :
    (∃ f, Raised s f ∧ t = takeFault s f) ∨
    (∃ w i, fetch s = .ok w ∧ decode w = .ok i ∧ exec i s = .next t) := by
  unfold fetchExecute at h
  split at h
  · rename_i f hf; exact .inl ⟨f, memRead_raised hf, by cases h; rfl⟩
  · rename_i w hw
    split at h
    · exact .inl ⟨_, raised_unknownOpcodeFault s _, by cases h; rfl⟩
    · rename_i i hi; exact .inr ⟨w, i, hw, hi, h⟩

/-- Fetching an instruction that decodes executes it. -/
theorem fetchExecute_of_decode {s : State} {w : Int} {i : Instr} (hf : fetch s = .ok w) (hd : decode w = .ok i) :
    fetchExecute s = exec i s := by simp [fetchExecute, hf, hd]

theorem fetchExecute_next (s : State) : ∃ t, fetchExecute s = .next t := by
  unfold fetchExecute; split
  · exact ⟨_, rfl⟩
  · split
    · exact ⟨_, rfl⟩
    · exact exec_next _ _

/-- A cycle always answers a next state. -/
theorem cycle_next (s : State) : ∃ t, cycle s = .next t := by
  unfold cycle; split
  · exact ⟨_, rfl⟩
  · exact fetchExecute_next _

/-- The ways a cycle ends: the breakpoint stops it, or step 3 runs with the latch cleared. -/
theorem cycle_cases {s t : State} (h : cycle s = .next t) :
    (BreakpointHit s ∧ t = { s with status := .atBreakpoint }) ∨
    (¬ BreakpointHit s ∧ fetchExecute (clearLatch s) = .next t) := by
  unfold cycle at h; split at h
  · rename_i hb; exact .inl ⟨hb, by cases h; rfl⟩
  · rename_i hb; exact .inr ⟨hb, h⟩

@[simp] theorem clearLatch_running {s : State} (h : s.status = .running) : clearLatch s = s := by
  simp [clearLatch, h]

@[simp] theorem clearLatch_atBreakpoint {s : State} (h : s.status = .atBreakpoint) :
    clearLatch s = { s with status := .running } := by simp [clearLatch, h]

/-- After step 2 a machine that can cycle is RUNNING. -/
theorem clearLatch_of_canCycle {s : State} (h : CanCycle s) : clearLatch s = { s with status := .running } := by
  rcases h with h | h
  · rw [clearLatch_running h, ← h]
  · exact clearLatch_atBreakpoint h

/-- What `run` starts from: the state itself, or the state with WAITING_FOR_INPUT left. -/
theorem resume_cases {s t : State} (h : resume s = some t) :
    (CanCycle s ∧ t = s) ∨
    (s.status = .waitingForInput ∧ s.inq ≠ [] ∧ t = { s with status := .running }) := by
  unfold resume at h
  split at h
  · cases h
  · cases h
  · rename_i hw
    split at h
    · cases h
    · rename_i hq; exact .inr ⟨hw, hq, by cases h; rfl⟩
  · rename_i hr; exact .inl ⟨.inl hr, by cases h; rfl⟩
  · rename_i hr; exact .inl ⟨.inr hr, by cases h; rfl⟩

theorem resume_canCycle {s t : State} (h : resume s = some t) : CanCycle t := by
  rcases resume_cases h with ⟨hc, rfl⟩ | ⟨-, -, rfl⟩
  · exact hc
  · exact .inl rfl

theorem resume_of_canCycle {s : State} (h : CanCycle s) : resume s = some s := by
  rcases h with h | h <;> simp [resume, h]

/-- One round of the loop of `run`. -/
theorem runLoop_succ {k : Nat} {s t : State} (h : cycle s = .next t) :
    runLoop (k + 1) s = if t.status = .running then runLoop k t else .next t := by
  simp [runLoop, h]

/-- One round of the loop of `run(∞)`. -/
theorem loopToStop_succ {k : Nat} {s t : State} (h : cycle s = .next t) :
    loopToStop (k + 1) s = if t.status = .running then loopToStop k t else .next t := by
  simp [loopToStop, h]

theorem runLoop_one (s : State) : runLoop 1 s = cycle s := by
  obtain ⟨t, ht⟩ := cycle_next s
  rw [runLoop_succ ht, ht]; split <;> rfl

theorem run_zero (s : State) : run 0 s = .next s := rfl

theorem run_succ (n : Nat) (s : State) :
    run (n + 1) s = match resume s with | none => .next s | some t => runLoop (n + 1) t := rfl

/-- Where a cycle may start, a step is one cycle. -/
theorem step_of_canCycle {s : State} (h : CanCycle s) : step s = cycle s := by
  show run 1 s = _
  rw [run_succ, resume_of_canCycle h]
  exact runLoop_one s

/-- What a step can do: nothing where `run` returns at once, and otherwise one cycle of the resumed machine. -/
theorem step_cases {s t : State} (h : step s = .next t) :
    (resume s = none ∧ t = s) ∨ (∃ u, resume s = some u ∧ cycle u = .next t) := by
  have h : run 1 s = .next t := h
  rw [run_succ] at h
  cases hr : resume s with
  | none => rw [hr] at h; exact .inl ⟨rfl, by cases h; rfl⟩
  | some u =>
    rw [hr] at h
    have h : runLoop 1 u = .next t := h
    rw [runLoop_one] at h; exact .inr ⟨u, rfl, h⟩

/-- The loop of `run`, as an induction: what holds of the start and is kept by every cycle from a machine that can cycle
holds of the end. -/
theorem runLoop_induction {P : State → Prop} (hstep : ∀ s t, CanCycle s → P s → cycle s = .next t → P t) :
    ∀ (k : Nat) (s t : State), CanCycle s → P s → runLoop k s = .next t → P t := by
  intro k
  induction k with
  | zero => intro s t _ hp h; cases h; exact hp
  | succ k ih =>
    intro s t hc hp h
    obtain ⟨u, hu⟩ := cycle_next s
    rw [runLoop_succ hu] at h
    have hpu := hstep s u hc hp hu
    split at h
    · rename_i hr; exact ih u t (.inl hr) hpu h
    · cases h; exact hpu

/-- The same for the loop of `run(∞)`. -/
theorem loopToStop_induction {P : State → Prop} (hstep : ∀ s t, CanCycle s → P s → cycle s = .next t → P t) :
    ∀ (k : Nat) (s t : State), CanCycle s → P s → loopToStop k s = .next t → P t := by
  intro k
  induction k with
  | zero => intro s t _ _ h; cases h
  | succ k ih =>
    intro s t hc hp h
    obtain ⟨u, hu⟩ := cycle_next s
    rw [loopToStop_succ hu] at h
    have hpu := hstep s u hc hp hu
    split at h
    · rename_i hr; exact ih u t (.inl hr) hpu h
    · cases h; exact hpu

/-- The host's operations, as one induction step: a property kept by every cycle, by leaving WAITING_FOR_INPUT with input
at hand, and by the host's own updates is kept by every host operation. -/
theorem applyHostOp_induction {P : State → Prop}
    (hcycle : ∀ s t, CanCycle s → P s → cycle s = .next t → P t)
    (hresume : ∀ s, s.status = .waitingForInput → s.inq ≠ [] → P s → P { s with status := .running })
    (hpush : ∀ s v, InRange v → P s → P { s with inq := s.inq ++ [v] })
    (hprovide : ∀ s v, InRange v → P s → P (provideInput v s))
    (hset : ∀ s a, P s → P (setBreakpoint a s))
    (hclear : ∀ s a, P s → P (clearBreakpoint a s))
    (hsave : ∀ s, P s → P (saveSnapshot s))
    {op : HostOp} {s t : State} (hp : P s) (h : applyHostOp op s = .next t) : P t := by
  have started : ∀ {u v}, P u → resume u = some v → P v := by
    intro u v hu hv
    rcases resume_cases hv with ⟨-, rfl⟩ | ⟨hw, hq, rfl⟩
    · exact hu
    · exact hresume u hw hq hu
  have toStop : ∀ {fuel u}, P u → runToStop fuel u = .next t → P t := by
    intro fuel u hu h
    unfold runToStop at h
    split at h
    · cases h; exact hu
    · rename_i v hv; exact loopToStop_induction hcycle fuel v t (resume_canCycle hv) (started hu hv) h
  cases op with
  | run n =>
    have h : run n s = .next t := h
    cases n with
    | zero => cases h; exact hp
    | succ n =>
      rw [run_succ] at h
      split at h
      · cases h; exact hp
      · rename_i u hu; exact runLoop_induction hcycle (n + 1) u t (resume_canCycle hu) (started hp hu) h
  | runToStop fuel => exact toStop hp h
  | pushInput v =>
    have h : pushInput v s = .next t := h
    unfold pushInput at h
    split at h
    · rename_i hv; cases h; exact hpush s v hv hp
    · cases h
  | provideInputAndRun fuel v =>
    have h : provideInputAndRun fuel v s = .next t := h
    unfold provideInputAndRun at h
    split at h
    · rename_i hv; exact toStop (hprovide s v hv hp) h
    · cases h
  | setBreakpoint a => cases h; exact hset s a hp
  | clearBreakpoint a => cases h; exact hclear s a hp
  | saveSnapshot => cases h; exact hsave s hp

end Sys2Proof.Machine
end

