-- ==== Sys2Proof/Laws/PerInstr.lean ====
section
/-! SUPPORT. Per-instruction families: a statement about an instruction as a term, and one lemma per constructor. -/

namespace Sys2Proof.Laws

/-- The instruction word of a well-formed instruction is canonical (30_encoding.md R82) and carries the opcode in its low
two digits (R81). -/
def CanonicalWord.Statement (i : Instr) : Prop :=
  i.wellFormed = true → 0 ≤ encode i ∧ encode i ≤ 99999 ∧ encode i % 100 = (i.opcode : Int)

/-- A word composed of an opcode and three digits. -/
theorem canonicalWord_compose {op a b c : Nat} (ho : op < 100) (ha : a < 10) (hb : b < 10) (hc : c < 10) :
    0 ≤ encodeFields ⟨op, a, b, c⟩ ∧ encodeFields ⟨op, a, b, c⟩ ≤ 99999 ∧ encodeFields ⟨op, a, b, c⟩ % 100 = (op : Int) := by
  simp only [encodeFields]; omega

/-- The family for an instruction whose opcode has two digits. -/
theorem canonicalWord_of_opcode (i : Instr) (ho : i.opcode < 100) : CanonicalWord.Statement i := by
  intro h
  simp only [Instr.wellFormed, Bool.and_eq_true] at h
  exact canonicalWord_compose ho (digit_lt h.1.1) (digit_lt h.1.2) (digit_lt h.2)

theorem CanonicalWord.add (m1 m2 m3 : Mode) : CanonicalWord.Statement (.add m1 m2 m3) := canonicalWord_of_opcode _ (by simp [Instr.opcode])
theorem CanonicalWord.mul (m1 m2 m3 : Mode) : CanonicalWord.Statement (.mul m1 m2 m3) := canonicalWord_of_opcode _ (by simp [Instr.opcode])
theorem CanonicalWord.inp (m1 m2 m3 : Mode) : CanonicalWord.Statement (.inp m1 m2 m3) := canonicalWord_of_opcode _ (by simp [Instr.opcode])
theorem CanonicalWord.out (m1 m2 m3 : Mode) : CanonicalWord.Statement (.out m1 m2 m3) := canonicalWord_of_opcode _ (by simp [Instr.opcode])
theorem CanonicalWord.jnz (m1 m2 m3 : Mode) : CanonicalWord.Statement (.jnz m1 m2 m3) := canonicalWord_of_opcode _ (by simp [Instr.opcode])
theorem CanonicalWord.jz (m1 m2 m3 : Mode) : CanonicalWord.Statement (.jz m1 m2 m3) := canonicalWord_of_opcode _ (by simp [Instr.opcode])
theorem CanonicalWord.lt (m1 m2 m3 : Mode) : CanonicalWord.Statement (.lt m1 m2 m3) := canonicalWord_of_opcode _ (by simp [Instr.opcode])
theorem CanonicalWord.eq (m1 m2 m3 : Mode) : CanonicalWord.Statement (.eq m1 m2 m3) := canonicalWord_of_opcode _ (by simp [Instr.opcode])
theorem CanonicalWord.arb (m1 m2 m3 : Mode) : CanonicalWord.Statement (.arb m1 m2 m3) := canonicalWord_of_opcode _ (by simp [Instr.opcode])
theorem CanonicalWord.hlt (m1 m2 m3 : Mode) : CanonicalWord.Statement (.hlt m1 m2 m3) := canonicalWord_of_opcode _ (by simp [Instr.opcode])

end Sys2Proof.Laws
end

