-- ==== Sys2Proof/Tests/Slice0.lean ====
section
/-! SUPPORT. The session's own tests. Expected values are the spec's: the examples of 30_encoding.md and 41 to 46, the vectors
of 95_test_vectors.md (their ids in the comments), or hand calculation from a named rule. The `witness_` theorems show, for
each statement with hypotheses, states and operands that meet them, clause by clause, boundary values among them. -/

namespace Sys2Proof.Tests

open Sys2Proof Sys2Proof.Machine

/-! ### Helpers -/

/-- The state of a next outcome, and the reset state for a stop. -/
def nextOf : Host.Outcome State Fault Refusal → State
  | .next t => t
  | .fault _ => State.reset
  | .refused _ => State.reset

/-- The machine constructed with a program, under `Bounded` (B of 95_test_vectors.md). -/
def boot (program : List Int) (input : List Int := []) : State := nextOf (construct program input .bounded)

/-- The same under `Unbounded` (U of 95_test_vectors.md). -/
def bootU (program : List Int) (input : List Int := []) : State := nextOf (construct program input .unbounded)

/-- One step. -/
def after (s : State) : State := nextOf (step s)

/-- The unbounded machine with nothing in memory and `pc` that far below `WMAX`. -/
def nearTop (d : Int) : State := { State.reset with pc := wMax - d }

/-! ### Well-formedness: one ill-formed term for each check -/

theorem test_wellFormed_accepts_every_digit :
    [Mode.position, .immediate, .relative, .undefined 3, .undefined 9].all
      (fun m => (Instr.add m m m).wellFormed) = true := by decide
theorem test_wellFormed_refuses_m1 : (Instr.add (.undefined 2) .position .position).wellFormed = false := by decide
theorem test_wellFormed_refuses_m2 : (Instr.jnz .position (.undefined 10) .position).wellFormed = false := by decide
theorem test_wellFormed_refuses_m3 : (Instr.hlt .position .position (.undefined 0)).wellFormed = false := by decide

/-! ### Decoding: words written out from the spec's digits -/

theorem test_decode_add : decode 21101 = .ok (.add .immediate .immediate .relative) := by decide  -- P2
theorem test_decode_mul : decode 1002 = .ok (.mul .position .immediate .position) := by decide  -- R81's example
theorem test_decode_in : decode 203 = .ok (.inp .relative .position .position) := by decide  -- R170
theorem test_decode_out : decode 30004 = .ok (.out .position .position (.undefined 3)) := by decide  -- R93's example
theorem test_decode_jnz : decode 1105 = .ok (.jnz .immediate .immediate .position) := by decide  -- R180
theorem test_decode_jz : decode 1206 = .ok (.jz .relative .immediate .position) := by decide  -- P2
theorem test_decode_lt : decode 1107 = .ok (.lt .immediate .immediate .position) := by decide  -- CMP1
theorem test_decode_eq : decode 1008 = .ok (.eq .position .immediate .position) := by decide  -- L1-5
theorem test_decode_arb : decode 209 = .ok (.arb .relative .position .position) := by decide  -- ARB6
theorem test_decode_hlt : decode 99999 = .ok (.hlt (.undefined 9) (.undefined 9) (.undefined 9)) := by decide  -- HLT2
theorem test_decode_undefined_opcodes :  -- ILL1, R94
    decode 0 = .error (.undefinedOpcode 0) ∧ decode 10 = .error (.undefinedOpcode 10) ∧
    decode 98 = .error (.undefinedOpcode 98) := by decide
theorem test_decode_noncanonical :  -- ILL2, R82
    decode (-1) = .error .noncanonical ∧ decode (-99) = .error .noncanonical ∧
    decode 100099 = .error .noncanonical ∧ decode 100000 = .error .noncanonical := by decide
theorem test_encode : encode (.mul .relative .relative .relative) = 22202 ∧ encode (.hlt .position .position .relative) = 20099 := by
  decide  -- P2, HLT2

/-- Lengths (R96): 4 for 1, 2, 7, 8; 2 for 3, 4, 9; 3 for 5, 6; 1 for 99. -/
theorem test_lengths :
    ([.add, .mul, .inp, .out, .jnz, .jz, .lt, .eq, .arb, .hlt].map
      (fun (c : Mode → Mode → Mode → Instr) => (c .position .position .position).length)) = [4, 4, 2, 2, 3, 3, 4, 4, 2, 1] := by
  decide

/-- The host's numbering: the first word alone counts, and a pattern of 64 ones is the word -1 (log 10). -/
theorem test_decodeTableWord :
    decodeTableWord 64 1101 = some (.add .immediate .immediate .position) ∧ decodeTableWord 256 (2 ^ 64 * 7 + 99) =
      some (.hlt .position .position .position) ∧ decodeTableWord 64 (2 ^ 64 - 1) = none := by decide

/-- From reset, the step after `withFetchWord` runs exactly the instruction placed (log 4): HLT halts, IN waits, OUT `[0]`
emits the instruction word itself. -/
theorem test_withFetchWord :
    (after (State.reset.withFetchWord 64 99)).status = .halted ∧
    (after (State.reset.withFetchWord 64 3)).status = .waitingForInput ∧
    (after (State.reset.withFetchWord 64 4)).outlog = [4] := by decide
/-- It also makes room under `Bounded` and takes a breakpoint out of the way (log 4). -/
theorem test_withFetchWord_bounded :
    (after ({ boot [] with bps := [0], status := .atBreakpoint }.withFetchWord 64 1)).pc = 4 := by decide

/-! ### One step of each instruction -/

theorem test_add : (after (boot [1101, 2, 3, 5, 99, 0])).mem.read 5 = 5 ∧ (after (boot [1101, 2, 3, 5, 99, 0])).pc = 4 := by
  decide  -- ADD1
theorem test_add_out_of_range :  -- ADD3
    (after (boot [1101, wMax, 1, 5, 99, 0])).fault = some (rangeFault 0) ∧
    (after (boot [1101, wMax, 1, 5, 99, 0])).mem.read 5 = 0 := by decide
theorem test_mul : (after (boot [1102, -3, 4, 5, 99, 0])).mem.read 5 = -12 := by decide  -- MUL1
theorem test_mul_out_of_range :  -- MUL6
    (after (boot [1102, 4294967296, 4294967296, 5, 99, 0])).fault = some (rangeFault 0) := by decide
theorem test_in_consumes :  -- IO6
    (after (boot [3, 1, 99] [7, 8])).mem.read 1 = 7 ∧ (after (boot [3, 1, 99] [7, 8])).inq = [8] := by decide
theorem test_in_checks_target_before_queue :  -- IO8
    (after (bootU [203, -1, 99])).fault = some (addressFault 0 (-1)) := by decide
theorem test_out : (after (boot [104, -5, 99])).outlog = [-5] ∧ (after (boot [104, -5, 99])).lastOut = some (-5) := by
  decide  -- IO11
theorem test_out_out_of_bounds : (after (boot [4, 10, 99])).fault = some (addressFault 0 10) := by decide  -- IO13
theorem test_jnz_taken : (after (boot [1105, 1, 4, 99, 104, 7, 99])).pc = 4 := by decide  -- BR1
theorem test_jnz_negative_target :  -- BR6
    (after (boot [1105, 1, -1])).fault = some (addressFault 0 (-1)) ∧ (after (boot [1105, 1, -1])).pc = 0 := by decide
theorem test_jz_taken : (after (boot [1106, 0, 4, 99, 104, 7, 99])).pc = 4 := by decide  -- BR3
theorem test_jz_not_taken : (after (boot [1106, 5, 4, 99])).pc = 3 := by decide  -- BR4
theorem test_lt_is_signed : (after (boot [1107, -1, 0, 5, 99, 0])).mem.read 5 = 1 := by decide  -- CMP1
theorem test_lt_is_strict : (after (boot [1107, 3, 3, 5, 99, 1])).mem.read 5 = 0 := by decide  -- CMP2, over a word 1
theorem test_eq : (after (boot [8, 0, 0, 0, 99])).mem.read 0 = 1 := by decide  -- CMP8
theorem test_eq_out_of_bounds : (after (boot [8, 0, 20000])).fault = some (addressFault 0 20000) := by decide  -- L1-7
theorem test_arb : (after (boot [109, -5, 204, 5, 99])).rb = -5 := by decide  -- ARB1
theorem test_arb_relative : (after (boot [209, 0, 99])).rb = 209 := by decide  -- ARB6
theorem test_hlt : (after (boot [99])).status = .halted ∧ (after (boot [99])).pc = 0 ∧ (after (boot [99])).cycles = 1 := by
  decide  -- HLT1
theorem test_hlt_ignores_modes : (after (boot [1199])).status = .halted := by decide  -- HLT2

/-! ### Faults, breakpoints, the host -/

theorem test_illegal_words :  -- ILL1, ILL2, ILL3, ILL5
    (after (boot [98])).fault = some (unknownOpcodeFault 0 .opcode) ∧
    (after (boot [-1])).fault = some (unknownOpcodeFault 0 .noncanonical) ∧
    (after (boot [301, 0, 0, 0])).fault = some (unknownOpcodeFault 0 .mode) ∧
    (after (boot [10001, 0, 0, 0])).fault = some (unknownOpcodeFault 0 .mode) := by decide
theorem test_empty_program :  -- MEM1, MEM2
    (after (boot [])).fault = some (addressFault 0 0) ∧ (after (bootU [])).fault = some (unknownOpcodeFault 0 .opcode) := by
  decide
theorem test_fault_codes : [FaultKind.addressFault, .unknownOpcodeFault, .rangeFault].map FaultKind.code = [1, 2, 3] := by
  decide  -- R220
theorem test_breakpoint :  -- L1-4
    (after (setBreakpoint 0 (boot [99]))).status = .atBreakpoint ∧ (after (setBreakpoint 0 (boot [99]))).cycles = 0 ∧
    (after { setBreakpoint 0 (boot [99]) with status := .atBreakpoint }).status = .halted := by decide
theorem test_run_zero : run 0 (boot [99]) = .next (boot [99]) := rfl  -- BP1
theorem test_runToStop :  -- BR5: the jump, then HLT
    (nextOf (runToStop 2 (boot [1106, 0, 3, 99]))).status = .halted ∧
    (nextOf (runToStop 2 (boot [1106, 0, 3, 99]))).cycles = 2 := by decide
theorem test_report :  -- R134
    report (after (boot [98])) = .fault (some (unknownOpcodeFault 0 .opcode)) ∧
    report (after (boot [3, 3, 99, 0])) = .stopped .waitingForInput := by decide
theorem test_snapshotDiff : snapshotDiff (after (bootU [1101, 5, 6, 10, 4, 10, 99])) = [(10, 0, 11)] := by decide  -- P4
theorem test_observe : observe (after (boot [104, -5, 99])) =
    { status := .running, pc := 2, lastOut := some (-5), outlog := [-5], cycles := 1 } := by decide  -- R137
theorem test_memory_canonical : Memory.ofWords 0 [7, 0, 9] = [(0, 7), (2, 9)] ∧ (Memory.ofWords 0 [7, 0, 9]).write 2 0 = [(0, 7)] := by
  decide

/-- Program P1 of 95_test_vectors.md, with its loop target as a label. -/
theorem test_assemble : assemble [
      { label := some "loop", body := .out (.pos (.num 10)) }, { body := .add (.pos (.num 10)) (.imm (.num (-1))) (.pos (.num 10)) },
      { body := .jnz (.pos (.num 10)) (.imm (.label "loop")) }, { body := .hlt }, { body := .words [.num 3] }] =
    some [4, 10, 1001, 10, -1, 10, 1005, 10, 0, 99, 3] := by decide
theorem test_assemble_missing_label : assemble [{ body := .jmp (.imm (.label "nowhere")) }] = none := by decide

/-! ### The hypotheses of the statements are met -/

theorem witness_DecodeUndoesEncode :
    (Instr.lt (.undefined 3) (.undefined 9) .immediate).wellFormed = true ∧ (Instr.hlt .position .relative .position).wellFormed = true := by
  decide
theorem witness_EncodeUndoesDecode :
    decode 1 = .ok (.add .position .position .position) ∧
    decode 99999 = .ok (.hlt (.undefined 9) (.undefined 9) (.undefined 9)) := by decide
theorem witness_DecoderReadsDecimalDigits : decodeFields 0 = some ⟨0, 0, 0, 0⟩ ∧ decodeFields 99999 = some ⟨99, 9, 9, 9⟩ := by decide
theorem witness_DecodeClassifiesEveryWord :
    decode (-1) = .error .noncanonical ∧ decode 100000 = .error .noncanonical ∧ decode 9910 = .error (.undefinedOpcode 10) ∧
    decode 9998 = .error (.undefinedOpcode 98) ∧ decode 1 = .ok (.add .position .position .position) := by decide

/-- Raw parameters 3 (a legal address), -3 (with `rb = 3`, relative address 0). -/
theorem witness_ReadOperandValues :
    let s := { boot [2101, 3, -3, 7] with rb := 3 }
    (InRange (s.pc + 1) ∧ Legal s.cfg (s.pc + 1) ∧ Legal s.cfg (s.mem.read 1)) ∧
    (InRange (s.pc + 2) ∧ Legal s.cfg (s.pc + 2) ∧ InRange (s.mem.read 2 + s.rb) ∧ Legal s.cfg (s.mem.read 2 + s.rb)) := by
  decide
theorem witness_WriteTargetAddresses :
    let s := { boot [3, 0] with rb := 1 }
    InRange (s.pc + 1) ∧ Legal s.cfg (s.pc + 1) ∧ Legal s.cfg (s.mem.read 1) ∧ InRange (s.mem.read 1 + s.rb) ∧
    Legal s.cfg (s.mem.read 1 + s.rb) := by decide
theorem witness_ParameterChecksInOrder :
    ¬ InRange ((nearTop 0).pc + 1) ∧
    (InRange ((boot [3]).pc + 1) ∧ ¬ Legal (boot [3]).cfg ((boot [3]).pc + 1)) ∧
    (let s := boot [3, 2]; InRange (s.pc + 1) ∧ Legal s.cfg (s.pc + 1) ∧ ¬ Legal s.cfg (s.mem.read 1)) ∧
    (let s := { boot [3, 1] with rb := wMax }; InRange (s.pc + 1) ∧ Legal s.cfg (s.pc + 1) ∧ ¬ InRange (s.mem.read 1 + s.rb)) ∧
    (let s := { boot [3, 1] with rb := -2 }
     InRange (s.pc + 1) ∧ Legal s.cfg (s.pc + 1) ∧ InRange (s.mem.read 1 + s.rb) ∧ ¬ Legal s.cfg (s.mem.read 1 + s.rb)) := by
  decide
theorem witness_BoundedMemoryHasExactlyLWords :
    (boot [99, 5]).cfg.policy = .bounded ∧ (boot [99, 5]).cfg.len = 2 ∧ (boot [99, 5]).mem.wf = true ∧
    memRead (boot [99, 5]) 1 = .ok 5 ∧ memRead (boot [99, 5]) 2 = .error (addressFault 0 2) ∧
    memRead (boot [99, 5]) (-1) = .error (addressFault 0 (-1)) ∧ (boot []).cfg.len = 0 := by decide
theorem witness_UnboundedMemoryDefaultsToZero :
    (bootU [99, 5]).cfg.policy = .unbounded ∧ (bootU [99, 5]).mem.wf = true ∧ (∀ p ∈ (bootU [99, 5]).mem, p.1 ≠ 2) ∧
    memRead (bootU [99, 5]) wMax = .ok 0 ∧ memRead (bootU [99, 5]) (-1) = .error (addressFault 0 (-1)) := by decide
theorem witness_EqualReadsMeanEqualMemory :
    Memory.wf [(0, 1), (7, -2)] = true ∧ ∀ a, Memory.read [(0, 1), (7, -2)] a = Memory.read [(0, 1), (7, -2)] a :=
  ⟨by decide, fun _ => rfl⟩

/-- The operands of ADD: each check failing in turn, then the three outcomes with all of them resolved. -/
theorem witness_AddExecutes :
    readOperand (boot [301, 0, 0, 0]) 1 (.undefined 3) = .error (unknownOpcodeFault 0 .mode) ∧
    (readOperand (boot [1, 0, 4, 0]) 1 .position = .ok 1 ∧ readOperand (boot [1, 0, 4, 0]) 2 .position = .error (addressFault 0 4)) ∧
    (readOperand (boot [1, 0, 0]) 2 .position = .ok 1 ∧ writeAddress (boot [1, 0, 0]) 3 .position = .error (addressFault 0 3)) ∧
    (let s := boot [1101, wMax, 1, 5, 99, 0]
     readOperand s 1 .immediate = .ok wMax ∧ readOperand s 2 .immediate = .ok 1 ∧ writeAddress s 3 .position = .ok 5 ∧
     ¬ InRange (wMax + 1)) ∧
    (let s := nearTop 3
     readOperand s 1 .immediate = .ok 0 ∧ readOperand s 2 .immediate = .ok 0 ∧ writeAddress s 3 .position = .ok 0 ∧
     ¬ InRange (s.pc + 4)) ∧
    (let s := nearTop 4
     readOperand s 1 .immediate = .ok 0 ∧ readOperand s 2 .immediate = .ok 0 ∧ writeAddress s 3 .position = .ok 0 ∧
     InRange (s.pc + 4)) := by decide
theorem witness_MulExecutes :
    readOperand (boot [402, 0, 0, 0]) 1 (.undefined 4) = .error (unknownOpcodeFault 0 .mode) ∧
    (readOperand (boot [2, 0, -1, 0]) 1 .position = .ok 2 ∧ readOperand (boot [2, 0, -1, 0]) 2 .position = .error (addressFault 0 (-1))) ∧
    (readOperand (boot [10002, 0, 0, 0]) 2 .position = .ok 10002 ∧
      writeAddress (boot [10002, 0, 0, 0]) 3 .immediate = .error (unknownOpcodeFault 0 .mode)) ∧
    (let s := boot [1102, wMin, -1, 5, 99, 0]
     readOperand s 1 .immediate = .ok wMin ∧ readOperand s 2 .immediate = .ok (-1) ∧ writeAddress s 3 .position = .ok 5 ∧
     ¬ InRange (wMin * -1)) ∧
    (let s := nearTop 3
     readOperand s 1 .immediate = .ok 0 ∧ readOperand s 2 .immediate = .ok 0 ∧ writeAddress s 3 .position = .ok 0 ∧
     ¬ InRange (s.pc + 4)) ∧
    (let s := boot [1102, wMin, 1, 5, 99, 0]
     readOperand s 1 .immediate = .ok wMin ∧ readOperand s 2 .immediate = .ok 1 ∧ writeAddress s 3 .position = .ok 5 ∧
     InRange (wMin * 1) ∧ InRange (s.pc + 4)) := by decide
theorem witness_InExecutes :
    writeAddress (boot [103, 3, 99, 0] [1]) 1 .immediate = .error (unknownOpcodeFault 0 .mode) ∧
    (writeAddress (boot [3, 3, 99, 0]) 1 .position = .ok 3 ∧ (boot [3, 3, 99, 0]).inq = [] ∧ InRange (boot [3, 3, 99, 0]).pc) ∧
    (let s := { nearTop 1 with inq := [42] }
     writeAddress s 1 .position = .ok 0 ∧ s.inq = 42 :: [] ∧ ¬ InRange (s.pc + 2)) ∧
    (let s := { nearTop 2 with inq := [42] }
     writeAddress s 1 .position = .ok 0 ∧ s.inq = 42 :: [] ∧ InRange (s.pc + 2)) := by decide
theorem witness_OutExecutes :
    readOperand (boot [4, 3, 99]) 1 .position = .error (addressFault 0 3) ∧
    (readOperand (nearTop 1) 1 .immediate = .ok 0 ∧ ¬ InRange ((nearTop 1).pc + 2)) ∧
    (readOperand (boot [4, 2, 99]) 1 .position = .ok 99 ∧ InRange ((boot [4, 2, 99]).pc + 2)) := by decide
theorem witness_JnzExecutes :
    readOperand (boot [5]) 1 .position = .error (addressFault 0 1) ∧
    (readOperand (boot [1005, 0]) 1 .position = .ok 1005 ∧ readOperand (boot [1005, 0]) 2 .immediate = .error (addressFault 0 2)) ∧
    (readOperand (boot [1105, 1, -1]) 1 .immediate = .ok 1 ∧ readOperand (boot [1105, 1, -1]) 2 .immediate = .ok (-1)) ∧
    (readOperand (boot [1105, 1, 0]) 1 .immediate = .ok 1 ∧ readOperand (boot [1105, 1, 0]) 2 .immediate = .ok 0) ∧
    (readOperand (nearTop 2) 1 .immediate = .ok 0 ∧ readOperand (nearTop 2) 2 .immediate = .ok 0 ∧ ¬ InRange ((nearTop 2).pc + 3)) ∧
    (readOperand (nearTop 3) 1 .immediate = .ok 0 ∧ readOperand (nearTop 3) 2 .immediate = .ok 0 ∧ InRange ((nearTop 3).pc + 3)) := by
  decide
theorem witness_JzExecutes :
    readOperand (boot [306, 0, 0]) 1 (.undefined 3) = .error (unknownOpcodeFault 0 .mode) ∧
    (readOperand (boot [6, 0, 3]) 1 .position = .ok 6 ∧ readOperand (boot [6, 0, 3]) 2 .position = .error (addressFault 0 3)) ∧
    (readOperand (boot [1106, 0, -1]) 1 .immediate = .ok 0 ∧ readOperand (boot [1106, 0, -1]) 2 .immediate = .ok (-1)) ∧
    (readOperand (boot [1106, 0, 0]) 1 .immediate = .ok 0 ∧ readOperand (boot [1106, 0, 0]) 2 .immediate = .ok 0) ∧
    (let s := { nearTop 2 with mem := [(0, 5)] }
     readOperand s 1 .position = .ok 5 ∧ readOperand s 2 .immediate = .ok 0 ∧ ¬ InRange (s.pc + 3)) ∧
    (let s := { nearTop 3 with mem := [(0, 5)] }
     readOperand s 1 .position = .ok 5 ∧ readOperand s 2 .immediate = .ok 0 ∧ InRange (s.pc + 3)) := by decide
theorem witness_LtExecutes :
    readOperand (boot [307, 0, 0, 0]) 1 (.undefined 3) = .error (unknownOpcodeFault 0 .mode) ∧
    (readOperand (boot [7, 0, 4, 0]) 1 .position = .ok 7 ∧ readOperand (boot [7, 0, 4, 0]) 2 .position = .error (addressFault 0 4)) ∧
    (readOperand (boot [7, 0, 0]) 2 .position = .ok 7 ∧ writeAddress (boot [7, 0, 0]) 3 .position = .error (addressFault 0 3)) ∧
    (let s := nearTop 3
     readOperand s 1 .immediate = .ok 0 ∧ readOperand s 2 .immediate = .ok 0 ∧ writeAddress s 3 .position = .ok 0 ∧
     ¬ InRange (s.pc + 4)) ∧
    (let s := boot [1107, wMin, wMax, 5, 99, 0]
     readOperand s 1 .immediate = .ok wMin ∧ readOperand s 2 .immediate = .ok wMax ∧ writeAddress s 3 .position = .ok 5 ∧
     InRange (s.pc + 4) ∧ wMin < wMax) ∧
    (let s := boot [1107, 3, 3, 5, 99, 0]
     readOperand s 1 .immediate = .ok 3 ∧ readOperand s 2 .immediate = .ok 3 ∧ writeAddress s 3 .position = .ok 5 ∧
     ¬ (3 : Int) < 3) := by decide
theorem witness_EqExecutes :
    readOperand (boot [308, 0, 0, 0]) 1 (.undefined 3) = .error (unknownOpcodeFault 0 .mode) ∧
    (readOperand (boot [8, 0, 20000]) 1 .position = .ok 8 ∧
      readOperand (boot [8, 0, 20000]) 2 .position = .error (addressFault 0 20000)) ∧
    (readOperand (boot [8, 0, 0]) 2 .position = .ok 8 ∧ writeAddress (boot [8, 0, 0]) 3 .position = .error (addressFault 0 3)) ∧
    (let s := nearTop 3
     readOperand s 1 .immediate = .ok 0 ∧ readOperand s 2 .immediate = .ok 0 ∧ writeAddress s 3 .position = .ok 0 ∧
     ¬ InRange (s.pc + 4)) ∧
    (let s := boot [1108, 5, 5, 5, 99, 0]
     readOperand s 1 .immediate = .ok 5 ∧ readOperand s 2 .immediate = .ok 5 ∧ writeAddress s 3 .position = .ok 5 ∧
     InRange (s.pc + 4)) ∧
    (let s := boot [1108, 5, 6, 5, 99, 0]
     readOperand s 1 .immediate = .ok 5 ∧ readOperand s 2 .immediate = .ok 6 ∧ writeAddress s 3 .position = .ok 5 ∧
     InRange (s.pc + 4)) := by decide
theorem witness_ArbExecutes :
    readOperand (boot [309, 0]) 1 (.undefined 3) = .error (unknownOpcodeFault 0 .mode) ∧
    (let s := { boot [109, 1] with rb := wMax }; readOperand s 1 .immediate = .ok 1 ∧ ¬ InRange (s.rb + 1)) ∧
    (readOperand (nearTop 1) 1 .immediate = .ok 0 ∧ InRange ((nearTop 1).rb + 0) ∧ ¬ InRange ((nearTop 1).pc + 2)) ∧
    (readOperand (boot [109, wMin]) 1 .immediate = .ok wMin ∧ InRange ((boot [109, wMin]).rb + wMin) ∧
      InRange ((boot [109, wMin]).pc + 2)) := by decide
theorem witness_HltExecutes :
    ((99 : Int) % 100 = 99 ∧ (99999 : Int) % 100 = 99) ∧ InRange (boot [99]).pc ∧ (after (boot [99])).status = .halted ∧
    (let s := setBreakpoint 0 (boot [99])
     s.status = .running ∧ s.pc ∈ s.bps ∧ InRange s.pc ∧ fetch s = .ok (encode (.hlt .position .position .position)) ∧
     (Instr.hlt .position .position .position).wellFormed = true) := by decide
theorem witness_BreakpointStopsBeforeTheFetch :
    let s := setBreakpoint 0 (boot [98]); s.pc ∈ s.bps ∧ s.status ≠ .atBreakpoint := by decide

/-- BP2: the jump to itself comes back to its breakpoint. -/
theorem witness_LatchClearsAndRearms :
    let s := { setBreakpoint 0 (boot [1105, 1, 0]) with status := .atBreakpoint }
    s.status = .atBreakpoint ∧ ∃ t, cycle s = .next t ∧ t.status = .running ∧ t.pc ∈ t.bps :=
  ⟨rfl, _, rfl, by decide, by decide⟩
theorem witness_StepRunsTheDecodedInstruction :
    (let s := boot [99]
     s.status = .running ∧ s.pc ∉ s.bps ∧ Legal s.cfg s.pc ∧
     decode (s.mem.read s.pc.toNat) = .ok (.hlt .position .position .position)) ∧
    (let s := { setBreakpoint 0 (boot [99]) with status := .atBreakpoint }
     s.status = .atBreakpoint ∧ Legal s.cfg s.pc ∧ decode (s.mem.read s.pc.toNat) = .ok (.hlt .position .position .position)) ∧
    (let s := { boot [3, 3, 99, 0] [6] with status := .waitingForInput }
     s.status = .waitingForInput ∧ s.inq ≠ [] ∧ s.pc ∉ s.bps ∧ Legal s.cfg s.pc ∧
     decode (s.mem.read s.pc.toNat) = .ok (.inp .position .position .position)) := by decide
theorem witness_IllegalWordsFault :
    ((boot []).status = .running ∧ (boot []).pc ∉ (boot []).bps ∧ ¬ Legal (boot []).cfg (boot []).pc) ∧
    (Legal (boot [-1]).cfg 0 ∧ (boot [-1]).mem.read 0 < 0) ∧ (99999 < (boot [100000]).mem.read 0) ∧
    ((boot [98]).mem.read 0 % 100 = 98 ∧ (boot [99910]).mem.read 0 % 100 = 10 ∧ (boot [0]).mem.read 0 % 100 = 0) ∧
    ({ boot [0] with status := .atBreakpoint }.status = .atBreakpoint) := by decide
theorem witness_FaultsArePrecise :
    (boot [98]).status ≠ .faulted ∧ ∃ t, step (boot [98]) = .next t ∧ t.status = .faulted :=
  ⟨by decide, _, rfl, by decide⟩
theorem witness_FaultRecordsTellTheCause :
    (nextOf (exec (.out .position .position .position) (boot [4, 3, 99]))).fault = some (addressFault 0 3) ∧
    (nextOf (exec (.add .position .position .immediate) (boot [10001, 0, 0, 0]))).fault = some (unknownOpcodeFault 0 .mode) ∧
    (nextOf (exec (.add .immediate .immediate .position) (boot [1101, wMax, 1, 3]))).fault = some (rangeFault 0) := by decide
theorem witness_CommittedCyclesCountOnce :
    (boot [99]).status ≠ .faulted ∧ (nextOf (exec (.hlt .position .position .position) (boot [99]))).cycles = 1 ∧
    (nextOf (exec (.out .position .position .position) (boot [4, 3, 99]))).status = .faulted := by decide
theorem witness_ProgramCounterFollowsTheTable :
    (boot [1105, 1, 100]).status ≠ .faulted ∧
    (nextOf (exec (.jnz .immediate .immediate .position) (boot [1105, 1, 100]))).pc = 100 ∧
    (after (boot [1105, 1, 100])).pc ≠ (boot [1105, 1, 100]).pc ∧ BreakpointHit (setBreakpoint 0 (boot [99])) := by decide
theorem witness_StatusChangesAsDocumented :
    ((boot [3, 3, 99, 0]).status = .running ∧ (after (boot [3, 3, 99, 0])).status = .waitingForInput) ∧
    (nextOf (cycle (setBreakpoint 0 (boot [99])))).status = .atBreakpoint ∧
    (let s := { boot [3, 3, 99, 0] [6] with status := .waitingForInput }
     resume s = some { s with status := .running } ∧ (provideInput 5 s).status ≠ s.status ∧
     (nextOf (applyHostOp (.pushInput 5) s)).inq = [6, 5] ∧ (nextOf (applyHostOp .saveSnapshot s)).status = .waitingForInput) := by
  decide
theorem witness_RelativeBaseWrittenOnlyByArb :
    ((boot [109, -5]).rb = 0 ∧ InRange (boot [109, -5]).rb ∧
      (nextOf (exec (.arb .immediate .position .position) (boot [109, -5]))).rb ≠ (boot [109, -5]).rb) ∧
    InRange (7 + { boot [109, -5] with rb := -5 }.rb) ∧
    (nextOf (applyHostOp (.pushInput 1) { boot [109, -5] with rb := -5 })).rb = -5 := by decide
theorem witness_InputConsumedFifoByInOnly :
    (nextOf (exec (.inp .position .position .position) (boot [3, 1, 99] [7, 8]))).inq = [8] ∧
    (Instr.out .immediate .position .position).opcode ≠ 3 := by decide
theorem witness_OutputLogOnlyGrows :
    (nextOf (exec (.out .immediate .position .position) (boot [104, 7, 99]))).outlog = [7] ∧
    (nextOf (applyHostOp (.runToStop 2) (boot [104, 7, 99]))).outlog = [7] := by decide
theorem witness_StoresOnlyAtTheTarget :
    storeParam (.out .position .position .position) = none ∧
    (storeParam (.add .immediate .immediate .position) = some (3, .position) ∧
      writeAddress (boot [1101, 2, 3, 5]) 3 .position = .error (addressFault 0 5)) ∧
    (writeAddress (boot [1101, 2, 3, 5, 99, 0]) 3 .position = .ok 5 ∧ (boot [1101, 2, 3, 5, 99, 0]).mem.wf = true) := by decide
theorem witness_InstructionsLeaveTheRestAlone :
    ∃ t, exec (.lt .immediate .immediate .position) (boot [1107, -1, 0, 5, 99, 0]) = .next t ∧ t.status = .running :=
  ⟨_, rfl, by decide⟩
theorem witness_DiagnosticStateNeverRead :
    ∃ t, exec (.arb .immediate .position .position) (boot [109, -5]) = .next t ∧ t.rb = -5 := ⟨_, rfl, by decide⟩

/-- ADD, EQ and IN store at the next `pc`: the words 99, 1 and 42; MUL and LT store elsewhere. -/
theorem witness_FetchSeesThePreviousStore :
    (let s := boot [1101, 99, 0, 4, 0]
     s.mem.wf = true ∧ writeAddress s 3 .position = .ok 4 ∧ readOperand s 1 .immediate = .ok 99 ∧ readOperand s 2 .immediate = .ok 0 ∧
     (after s).status ≠ .faulted ∧ (after s).pc = 4 ∧ fetch (after s) = .ok 99) ∧
    (let s := boot [1108, 5, 5, 4, 0]
     s.mem.wf = true ∧ writeAddress s 3 .position = .ok 4 ∧ readOperand s 1 .immediate = .ok 5 ∧ readOperand s 2 .immediate = .ok 5 ∧
     (after s).status ≠ .faulted ∧ (after s).pc = 4 ∧ fetch (after s) = .ok 1) ∧
    (let s := boot [3, 2, 0] [42]
     s.mem.wf = true ∧ writeAddress s 1 .position = .ok 2 ∧ s.inq.head? = some 42 ∧
     (after s).status ≠ .faulted ∧ (after s).pc = 2 ∧ fetch (after s) = .ok 42) ∧
    (let s := boot [1102, -3, 4, 5, 99, 0]
     writeAddress s 3 .position = .ok 5 ∧ readOperand s 1 .immediate = .ok (-3) ∧ readOperand s 2 .immediate = .ok 4 ∧
     (after s).status ≠ .faulted) ∧
    (let s := boot [1107, -1, 0, 5, 99, 0]
     writeAddress s 3 .position = .ok 5 ∧ readOperand s 1 .immediate = .ok (-1) ∧ readOperand s 2 .immediate = .ok 0 ∧
     (after s).status ≠ .faulted) := by decide
theorem witness_TerminalMachinesNeverCycle :
    (after (boot [99])).status = .halted ∧ (after (boot [98])).status = .faulted ∧
    ((after (boot [3, 3, 99, 0])).status = .waitingForInput ∧ (after (boot [3, 3, 99, 0])).inq = []) ∧
    (nextOf (pushInput 6 (after (boot [3, 3, 99, 0])))).inq ≠ [] := by decide
theorem witness_FaultIsPermanent :
    (after (boot [98])).status = .faulted ∧
    ∃ t, applyHostOps [.setBreakpoint 3, .run 5, .provideInputAndRun 1 wMax, .saveSnapshot] (after (boot [98])) = .next t :=
  ⟨by decide, _, rfl⟩

/-- A waiting machine that meets the invariant; a report of a fault; a machine that is not FAULTED. -/
theorem witness_SuspensionsAreNotFailures :
    (StateInv { State.reset with status := .waitingForInput } ∧ ({ State.reset with status := .waitingForInput } : State).status = .waitingForInput) ∧
    (∃ f, report (after (boot [98])) = .fault (some f)) ∧ (boot [99]).status ≠ .faulted :=
  ⟨⟨⟨⟨by decide, by decide, by decide⟩, ⟨by decide, by decide, by decide⟩, by decide, by decide, by decide, by decide, by decide,
    by decide, by decide, by simp [State.reset]⟩, rfl⟩, ⟨_, rfl⟩, by decide⟩

/-- BR11: three self-jumps use the whole budget. -/
theorem witness_RunBudgetIsExact :
    ∃ t, run 3 (boot [1105, 1, 0]) = .next t ∧ t.status = .running ∧ t.cycles = 3 := ⟨_, rfl, by decide, by decide⟩
theorem witness_RunsCompose : ∃ t, run 1 (boot [1105, 1, 3, 99]) = .next t ∧ t.status = .running := ⟨_, rfl, by decide⟩
theorem witness_RunToStopIsTheFirstBudgetThatStops :
    ∃ t, runToStop 2 (boot [1106, 0, 3, 99]) = .next t ∧ t.status ≠ .running := ⟨_, rfl, by decide⟩
theorem witness_BreakpointStopsOnceThenExecutes :
    let s := setBreakpoint 0 (boot [1105, 1, 0])
    s.status = .running ∧ s.pc ∈ s.bps ∧ Legal s.cfg s.pc ∧
    decode (s.mem.read s.pc.toNat) = .ok (.jnz .immediate .immediate .position) ∧
    ∃ t, exec (.jnz .immediate .immediate .position) s = .next t ∧ t.status = .running ∧ t.pc = s.pc :=
  ⟨by decide, by decide, by decide, by decide, _, rfl, by decide, by decide⟩
theorem witness_SuspendedInputResumes :  -- IO4, at the top of the word range
    let s := boot [3, 3, 99, 0]
    s.status = .running ∧ s.pc ∉ s.bps ∧ s.inq = [] ∧ Legal s.cfg s.pc ∧
    decode (s.mem.read s.pc.toNat) = .ok (.inp .position .position .position) ∧ writeAddress s 1 .position = .ok 3 ∧
    InRange s.pc ∧ InRange (s.pc + 2) ∧ InRange wMax := by decide
theorem witness_InputOperations :
    InRange wMax ∧ InRange wMin ∧ ¬ InRange (wMax + 1) ∧ ¬ InRange (wMin - 1) ∧ (boot [99]).status ≠ .waitingForInput ∧
    (after (boot [3, 3, 99, 0])).status = .waitingForInput := by decide
theorem witness_HostCannotWriteTheMachine :
    (∃ t, applyHostOp (.pushInput 6) (boot [99]) = .next t) ∧ (∃ t, applyHostOp (.setBreakpoint (-3)) (boot [99]) = .next t) ∧
    ((after (boot [99])).status = .halted ∧ ∃ t, applyHostOp (.provideInputAndRun 1 6) (after (boot [99])) = .next t) :=
  ⟨⟨_, rfl⟩, ⟨_, rfl⟩, by decide, _, rfl⟩
theorem witness_SnapshotWrittenOnlyByTheHost :
    (∃ s, construct [3, 3, 99, 0] [42] .bounded = .next s) ∧
    (∃ t, exec (.inp .position .position .position) (boot [3, 3, 99, 0] [42]) = .next t ∧ t.mem ≠ t.snap) ∧
    (∃ t, applyHostOp (.run 1) (boot [3, 3, 99, 0] [42]) = .next t) :=
  ⟨⟨_, rfl⟩, ⟨_, rfl, by decide⟩, _, rfl⟩
theorem witness_ConstructedMachine :
    (AllWords [wMin, wMax] ∧ AllWords []) ∧ ¬ (AllWords [wMax + 1] ∧ AllWords []) ∧ ¬ (AllWords [99] ∧ AllWords [wMin - 1]) := by
  decide
theorem witness_ConfigurationNeverChanges :
    ∃ t, applyHostOps [.setBreakpoint 4, .runToStop 3, .runToStop 3] (boot [1101, 1, 1, 0, 99]) = .next t ∧ t.status = .halted :=
  ⟨_, rfl, by decide⟩
theorem witness_StepKeepsTheInvariant : (∃ t, step State.reset = .next t) ∧ MemOk State.reset.cfg State.reset.mem :=
  ⟨⟨_, rfl⟩, ⟨by decide, by decide, by decide⟩⟩
theorem witness_ReachableStatesMeetTheInvariant : Reachable (after (boot [1101, 1, 1, 0, 99])) :=
  .moved _ _ (.run 1) (.constructed [1101, 1, 1, 0, 99] [] .bounded _ rfl) rfl
theorem witness_HostOperationsKeepTheInvariant :
    (∃ s, construct [1101, 1, 1, 0, 99] [wMin] .bounded = .next s) ∧ ∃ t, applyHostOp (.pushInput wMax) State.reset = .next t :=
  ⟨⟨_, rfl⟩, _, rfl⟩

end Sys2Proof.Tests
end

section
/-! SUPPORT. What the state elements `pc`, `rb` and `snap` can become (10_state.md R24, R26, R35): which effects an instruction
can ask for, and what one cycle and one `run` leave alone. -/

namespace Sys2Proof.Machine

/-! ### What an instruction can ask for, in every state -/

/-- The effects on `rb` and `status` that an instruction can ask for, whether or not the state is sound: a new base by ARB only
(10_state.md R26), a new status by HLT and by an IN that suspends (40_engine_cycle.md R129). -/
structure EffectFrame (i : Instr) (s : State) (e : Effect) : Prop where
  base : ∀ r, e.newRb = some r → (∃ m1 m2 m3, i = .arb m1 m2 m3) ∧ InRange r
  status : ∀ st, e.newStatus = some st →
    (st = .halted ∧ i.opcode = 99) ∨ (st = .waitingForInput ∧ i.opcode = 3 ∧ s.inq = [])

/-- An effect that asks for no new base and no new status. -/
theorem effectFrame_of_none {i : Instr} {s : State} {e : Effect} (hr : e.newRb = none) (hs : e.newStatus = none) :
    EffectFrame i s e := ⟨by simp [hr], by simp [hs]⟩

theorem effectFrame_of_evalBinary {i : Instr} {m1 m2 m3 : Mode} {g : Int → Int → Except FaultRecord Int} {s : State}
    {e : Effect} (h : evalBinary m1 m2 m3 g s = .ok e) : EffectFrame i s e := by
  obtain ⟨_, _, _, _, -, -, -, -, rfl⟩ := evalBinary_eq_ok.1 h
  exact effectFrame_of_none rfl rfl

theorem effectFrame_of_evalJump {i : Instr} {m1 m2 : Mode} {taken : Int → Bool} {s : State} {e : Effect}
    (h : evalJump m1 m2 taken s = .ok e) : EffectFrame i s e := by
  obtain ⟨_, _, -, -, ⟨-, -, rfl⟩ | ⟨-, rfl⟩⟩ := evalJump_eq_ok.1 h
  · exact effectFrame_of_none rfl rfl
  · exact effectFrame_of_none rfl rfl

theorem evalOf_effectFrame {i : Instr} {s : State} {e : Effect} (h : evalOf i s = .ok e) : EffectFrame i s e := by
  cases i with
  | add m1 m2 m3 => exact effectFrame_of_evalBinary h
  | mul m1 m2 m3 => exact effectFrame_of_evalBinary h
  | inp m1 m2 m3 =>
    obtain ⟨_, -, ⟨hq, rfl⟩ | ⟨_, _, -, rfl⟩⟩ := evalIn_eq_ok.1 h
    · exact ⟨by simp, by simp [Instr.opcode, hq]⟩
    · exact effectFrame_of_none rfl rfl
  | out m1 m2 m3 =>
    obtain ⟨_, -, rfl⟩ := evalOut_eq_ok.1 h
    exact effectFrame_of_none rfl rfl
  | jnz m1 m2 m3 => exact effectFrame_of_evalJump h
  | jz m1 m2 m3 => exact effectFrame_of_evalJump h
  | lt m1 m2 m3 => exact effectFrame_of_evalBinary h
  | eq m1 m2 m3 => exact effectFrame_of_evalBinary h
  | arb m1 m2 m3 =>
    obtain ⟨_, -, hr, rfl⟩ := evalArb_eq_ok.1 h
    exact ⟨by rintro _ ⟨⟩; exact ⟨⟨_, _, _, rfl⟩, hr⟩, by simp⟩
  | hlt m1 m2 m3 =>
    cases h
    exact ⟨by simp, by simp [Instr.opcode]⟩

/-- Committing an instruction's effect never makes a machine FAULTED. -/
theorem commit_status_ne_faulted {i : Instr} {s : State} {e : Effect} (npc : Int) (h : evalOf i s = .ok e)
    (hs : s.status ≠ .faulted) : (commit s e npc).status ≠ .faulted := by
  rw [commit_status]
  cases hn : e.newStatus with
  | none => exact hs
  | some st => rcases (evalOf_effectFrame h).status st hn with ⟨rfl, -⟩ | ⟨rfl, -⟩ <;> simp

/-! ### The program counter (R24) -/

theorem isZero_eq_true {a : Int} : isZero a = true ↔ a = 0 := decide_eq_true_iff

theorem isZero_eq_false {a : Int} : isZero a = false ↔ a ≠ 0 := decide_eq_false_iff_not

/-- The next pc of an instruction of format F4. -/
theorem evalBinary_nextPc {m1 m2 m3 : Mode} {g : Int → Int → Except FaultRecord Int} {s : State} {e : Effect} {npc : Int}
    (h : evalBinary m1 m2 m3 g s = .ok e) (hn : nextPc s e.next = .ok npc) : npc = s.pc + 4 := by
  obtain ⟨_, _, _, _, -, -, -, -, rfl⟩ := evalBinary_eq_ok.1 h
  exact (nextPc_delta_eq_ok.1 hn).2

/-- The next pc of a jump: the target where it is taken, and otherwise the word after it. -/
theorem evalJump_nextPc {m1 m2 : Mode} {taken : Int → Bool} {s : State} {e : Effect} {npc : Int}
    (h : evalJump m1 m2 taken s = .ok e) (hn : nextPc s e.next = .ok npc) :
    ∃ a b, readOperand s 1 m1 = .ok a ∧ readOperand s 2 m2 = .ok b ∧
      ((taken a = true ∧ npc = b) ∨ (taken a = false ∧ npc = s.pc + 3)) := by
  obtain ⟨a, b, ha, hb, ⟨ht, -, rfl⟩ | ⟨ht, rfl⟩⟩ := evalJump_eq_ok.1 h
  · exact ⟨a, b, ha, hb, .inl ⟨ht, (Except.ok.inj hn).symm⟩⟩
  · exact ⟨a, b, ha, hb, .inr ⟨ht, (nextPc_delta_eq_ok.1 hn).2⟩⟩

/-- A commit moves the pc to the value R24 lists. -/
theorem commit_pcRule {i : Instr} {s : State} {e : Effect} {npc : Int} (h : evalOf i s = .ok e)
    (hn : nextPc s e.next = .ok npc) : PcRule s (commit s e npc) i := by
  cases i with
  | add m1 m2 m3 => exact evalBinary_nextPc h hn
  | mul m1 m2 m3 => exact evalBinary_nextPc h hn
  | inp m1 m2 m3 =>
    obtain ⟨_, -, ⟨hq, rfl⟩ | ⟨_, _, hq, rfl⟩⟩ := evalIn_eq_ok.1 h
    · exact .inr ⟨hq, (nextPc_delta_eq_ok.1 hn).2.trans (add_zero s.pc)⟩
    · exact .inl ⟨by simp [hq], (nextPc_delta_eq_ok.1 hn).2⟩
  | out m1 m2 m3 =>
    obtain ⟨_, -, rfl⟩ := evalOut_eq_ok.1 h
    exact (nextPc_delta_eq_ok.1 hn).2
  | jnz m1 m2 m3 =>
    simpa only [PcRule, commit_pc, Bool.not_eq_true', Bool.not_eq_false', isZero_eq_true, isZero_eq_false]
      using evalJump_nextPc h hn
  | jz m1 m2 m3 => simpa only [PcRule, commit_pc, isZero_eq_true, isZero_eq_false] using evalJump_nextPc h hn
  | lt m1 m2 m3 => exact evalBinary_nextPc h hn
  | eq m1 m2 m3 => exact evalBinary_nextPc h hn
  | arb m1 m2 m3 =>
    obtain ⟨_, -, -, rfl⟩ := evalArb_eq_ok.1 h
    exact (nextPc_delta_eq_ok.1 hn).2
  | hlt m1 m2 m3 =>
    cases h
    exact (nextPc_delta_eq_ok.1 hn).2.trans (add_zero s.pc)

/-- An instruction leaves the pc or counts its cycle. -/
theorem exec_pc_or_cycles {i : Instr} {s t : State} (h : exec i s = .next t) : t.pc = s.pc ∨ t.cycles = s.cycles + 1 := by
  rcases exec_cases h with ⟨_, -, rfl⟩ | ⟨_, _, -, -, rfl⟩
  · exact .inl rfl
  · exact .inr rfl

@[simp] theorem clearLatch_pc (s : State) : (clearLatch s).pc = s.pc := by unfold clearLatch; split <;> rfl
@[simp] theorem clearLatch_cycles (s : State) : (clearLatch s).cycles = s.cycles := by unfold clearLatch; split <;> rfl
@[simp] theorem clearLatch_snap (s : State) : (clearLatch s).snap = s.snap := by unfold clearLatch; split <;> rfl

theorem cycle_pc_or_cycles {s t : State} (h : cycle s = .next t) : t.pc = s.pc ∨ t.cycles = s.cycles + 1 := by
  rcases cycle_cases h with ⟨-, rfl⟩ | ⟨-, h⟩
  · exact .inl rfl
  · rcases fetchExecute_cases h with ⟨_, -, rfl⟩ | ⟨_, _, -, -, h⟩
    · simp
    · simpa using exec_pc_or_cycles h

/-- What `run` starts from differs from the state at most in its status. -/
theorem resume_eq_withStatus {s u : State} (h : resume s = some u) : ∃ st, u = { s with status := st } := by
  rcases resume_cases h with ⟨-, rfl⟩ | ⟨-, -, rfl⟩
  · exact ⟨u.status, rfl⟩
  · exact ⟨_, rfl⟩

theorem step_pc_or_cycles {s t : State} (h : step s = .next t) : t.pc = s.pc ∨ t.cycles = s.cycles + 1 := by
  rcases step_cases h with ⟨-, rfl⟩ | ⟨u, hu, h⟩
  · exact .inl rfl
  · obtain ⟨_, rfl⟩ := resume_eq_withStatus hu
    simpa only using cycle_pc_or_cycles h

/-- Settles O30: a commit moves `pc` by `PcRule`; a fault, a breakpoint hit and a call that starts no cycle leave it. -/
theorem programCounterFollowsTheTable : Obligations.ProgramCounterFollowsTheTable := by
  refine ⟨fun i s t hs h => ?_, fun s t h hpc => (step_pc_or_cycles h).resolve_left hpc, fun s t hb h => ?_⟩
  · rcases exec_cases h with ⟨_, -, rfl⟩ | ⟨_, npc, he, hn, rfl⟩
    · exact ⟨fun hf => absurd rfl hf, fun _ => rfl⟩
    · exact ⟨fun _ => commit_pcRule he hn, fun hf => absurd hf (commit_status_ne_faulted npc he hs)⟩
  · rcases cycle_cases h with ⟨-, rfl⟩ | ⟨hn, -⟩
    · rfl
    · exact absurd hb hn

/-! ### The relative base (R26) -/

/-- What an instruction can do to `rb`: leave it, or, being ARB, give it a word. -/
theorem exec_rb_cases {i : Instr} {s t : State} (h : exec i s = .next t) :
    t.rb = s.rb ∨ ((∃ m1 m2 m3, i = .arb m1 m2 m3) ∧ InRange t.rb) := by
  rcases exec_cases h with ⟨_, -, rfl⟩ | ⟨e, _, he, -, rfl⟩
  · exact .inl rfl
  · rw [commit_rb]
    cases hr : e.newRb with
    | none => exact .inl rfl
    | some r => exact .inr ((evalOf_effectFrame he).base r hr)

theorem pushInput_eq_next {v : Int} {s t : State} :
    pushInput v s = .next t ↔ InRange v ∧ t = { s with inq := s.inq ++ [v] } := by
  unfold pushInput
  split
  · rename_i hv; rw [and_iff_right hv, Host.Outcome.next.injEq, eq_comm]
  · rename_i hv; simp [hv]

theorem construct_rb_and_snap {program input : List Int} {policy : Policy} {s : State}
    (h : construct program input policy = .next s) : s.rb = 0 ∧ s.snap = s.mem := by
  unfold construct at h; split at h
  · cases h; exact ⟨rfl, rfl⟩
  · cases h

/-- Settles O32: only ARB's effect carries a new base, and it is range-checked; every other clause is one update of the state. -/
theorem relativeBaseWrittenOnlyByArb : Obligations.RelativeBaseWrittenOnlyByArb := by
  refine ⟨fun _ _ _ _ h => (construct_rb_and_snap h).1, fun _ _ _ h hne => ((exec_rb_cases h).resolve_left hne).1,
    fun _ _ _ hs h => ?_, fun _ _ => chk_of_inRange, ?_, fun s v => provideInput_rb v s, fun _ _ => rfl⟩
  · rcases exec_rb_cases h with hr | ⟨-, hr⟩
    · rwa [hr]
    · exact hr
  · rintro s t op (⟨v, rfl⟩ | ⟨a, rfl⟩ | ⟨a, rfl⟩ | rfl) h
    · obtain ⟨-, rfl⟩ := pushInput_eq_next.1 h; rfl
    · cases h; exact setBreakpoint_rb a s
    · cases h; exact clearBreakpoint_rb a s
    · cases h; exact saveSnapshot_rb s

/-! ### The snapshot (R35, R240) -/

/-- No evaluation reads the snapshot. -/
theorem evalOf_withSnap (i : Instr) (s : State) (n : Memory) : evalOf i { s with snap := n } = evalOf i s := by
  cases i <;> rfl

theorem nextPc_withSnap (s : State) (n : Memory) (x : Next) : nextPc { s with snap := n } x = nextPc s x := by
  cases x <;> rfl

/-- The end of a cycle carries the snapshot along and does not read it. -/
theorem finish_withSnap {s t : State} {r : Except FaultRecord Effect} (n : Memory) (h : finish s r = .next t) :
    finish { s with snap := n } r = .next { t with snap := n } := by
  rcases finish_cases h with ⟨f, rfl | ⟨e, rfl, hf⟩, rfl⟩ | ⟨e, npc, rfl, hp, rfl⟩
  · rfl
  · simp only [finish, nextPc_withSnap, hf]; rfl
  · rw [finish_ok (nextPc_withSnap s n e.next ▸ hp)]; rfl

theorem exec_withSnap {i : Instr} {s t : State} (n : Memory) (h : exec i s = .next t) :
    exec i { s with snap := n } = .next { t with snap := n } := by
  rw [exec_eq_finish] at h ⊢
  rw [evalOf_withSnap]
  exact finish_withSnap n h

theorem exec_snap {i : Instr} {s t : State} (h : exec i s = .next t) : t.snap = s.snap := by
  rcases exec_cases h with ⟨_, -, rfl⟩ | ⟨_, _, -, -, rfl⟩ <;> rfl

theorem cycle_snap {s t : State} (h : cycle s = .next t) : t.snap = s.snap := by
  rcases cycle_cases h with ⟨-, rfl⟩ | ⟨-, h⟩
  · rfl
  · rw [← clearLatch_snap s]
    rcases fetchExecute_cases h with ⟨_, -, rfl⟩ | ⟨_, _, -, -, h⟩
    · rfl
    · exact exec_snap h

/-- `run(n)` keeps the snapshot: no cycle writes it. -/
theorem run_snap {n : Nat} {s t : State} (h : run n s = .next t) : t.snap = s.snap := by
  unfold run at h
  split at h
  · cases h; rfl
  split at h
  · cases h; rfl
  · rename_i u hu
    obtain ⟨_, rfl⟩ := resume_eq_withStatus hu
    exact runLoop_induction (P := fun x => x.snap = s.snap) (fun _ _ _ hp hc => (cycle_snap hc).trans hp) n _ t
      (resume_canCycle hu) rfl h

/-- `run(∞)` keeps the snapshot. -/
theorem runToStop_snap {fuel : Nat} {s t : State} (h : runToStop fuel s = .next t) : t.snap = s.snap := by
  unfold runToStop at h
  split at h
  · cases h; rfl
  · rename_i u hu
    obtain ⟨_, rfl⟩ := resume_eq_withStatus hu
    exact loopToStop_induction (P := fun x => x.snap = s.snap) (fun _ _ _ hp hc => (cycle_snap hc).trans hp) fuel _ t
      (resume_canCycle hu) rfl h

theorem provideInputAndRun_eq_next {fuel : Nat} {v : Int} {s t : State} :
    provideInputAndRun fuel v s = .next t ↔ InRange v ∧ runToStop fuel (provideInput v s) = .next t := by
  unfold provideInputAndRun
  split
  · rename_i hv; exact (and_iff_right hv).symm
  · rename_i hv; simp [hv]

/-- No host operation but `save_snapshot` writes the snapshot. -/
theorem applyHostOp_snap {op : HostOp} {s t : State} (h : applyHostOp op s = .next t) (hop : op ≠ .saveSnapshot) :
    t.snap = s.snap := by
  cases op with
  | run n => exact run_snap h
  | runToStop fuel => exact runToStop_snap h
  | pushInput v => obtain ⟨-, rfl⟩ := pushInput_eq_next.1 h; rfl
  | provideInputAndRun fuel v => exact (runToStop_snap (provideInputAndRun_eq_next.1 h).2).trans (provideInput_snap v s)
  | setBreakpoint a => cases h; exact setBreakpoint_snap a s
  | clearBreakpoint a => cases h; exact clearBreakpoint_snap a s
  | saveSnapshot => exact absurd rfl hop

/-- Settles O50: evaluation and commit carry the snapshot along unread, and every host operation but `save_snapshot` is built
of moves that keep it. -/
theorem snapshotWrittenOnlyByTheHost : Obligations.SnapshotWrittenOnlyByTheHost :=
  ⟨fun _ _ _ _ h => (construct_rb_and_snap h).2, fun _ => rfl, fun _ _ _ n h => ⟨exec_snap h, exec_withSnap n h⟩,
    fun _ _ _ h hop => applyHostOp_snap h hop⟩

end Sys2Proof.Machine
end

section
/-! SUPPORT. The memory arbiter under `Bounded` (20_memory.md R52): which addresses are legal, what a read answers at a legal
and at an illegal address, and that no step changes the configuration. -/

namespace Sys2Proof.Machine

/-! ### The arbiter, from legality alone -/

theorem legal_iff_of_bounded {c : Config} (hb : c.policy = .bounded) {a : Int} : Legal c a ↔ 0 ≤ a ∧ a < c.len := by
  simp [Legal, hb]

theorem not_legal_iff_of_bounded {c : Config} (hb : c.policy = .bounded) {a : Int} : ¬ Legal c a ↔ a < 0 ∨ c.len ≤ a := by
  rw [legal_iff_of_bounded hb]; omega

theorem memRead_of_legal {s : State} {a : Int} (h : Legal s.cfg a) : memRead s a = .ok (s.mem.read a.toNat) :=
  memRead_eq_ok.2 ⟨h, rfl⟩

theorem memRead_of_not_legal {s : State} {a : Int} (h : ¬ Legal s.cfg a) : memRead s a = .error (addressFault s.pc a) :=
  memRead_eq_error.2 ⟨h, rfl⟩

theorem checkAddr_of_legal {s : State} {a : Int} (h : Legal s.cfg a) : checkAddr s a = .ok a := checkAddr_eq_ok.2 ⟨h, rfl⟩

theorem checkAddr_of_not_legal {s : State} {a : Int} (h : ¬ Legal s.cfg a) :
    checkAddr s a = .error (addressFault s.pc a) := checkAddr_eq_error.2 ⟨h, rfl⟩

/-- A read of a legal address after a write to it gives the value written. -/
theorem memRead_write_same {s : State} (hw : s.mem.wf = true) {a : Int} (v : Int) (h : Legal s.cfg a) :
    memRead { s with mem := s.mem.write a.toNat v } a = .ok v := by
  rw [memRead_of_legal (s := { s with mem := s.mem.write a.toNat v }) h, read_write_same hw]

/-! ### The configuration (10_state.md R22) -/

theorem exec_cfg {i : Instr} {s t : State} (h : exec i s = .next t) : t.cfg = s.cfg := by
  rcases exec_cases h with ⟨_, -, rfl⟩ | ⟨_, _, -, -, rfl⟩ <;> rfl

@[simp] theorem clearLatch_cfg (s : State) : (clearLatch s).cfg = s.cfg := by unfold clearLatch; split <;> rfl

theorem cycle_cfg {s t : State} (h : cycle s = .next t) : t.cfg = s.cfg := by
  rcases cycle_cases h with ⟨-, rfl⟩ | ⟨-, h⟩
  · rfl
  · rw [← clearLatch_cfg s]
    rcases fetchExecute_cases h with ⟨_, -, rfl⟩ | ⟨_, _, -, -, h⟩
    · rfl
    · exact exec_cfg h

/-- No step changes the policy or the length. -/
theorem step_cfg {s t : State} (h : step s = .next t) : t.cfg = s.cfg := by
  rcases step_cases h with ⟨-, rfl⟩ | ⟨u, hu, h⟩
  · rfl
  · obtain ⟨_, rfl⟩ := resume_eq_withStatus hu
    simpa only using cycle_cfg h

/-- Settles O10: under `Bounded` legality is `0 ≤ a < L`, the arbiter's answers follow from legality, and a step keeps the
configuration. -/
theorem boundedMemoryHasExactlyLWords : Obligations.BoundedMemoryHasExactlyLWords := by
  intro s hb
  have hlegal (a : Int) : Legal s.cfg a ↔ 0 ≤ a ∧ a < s.cfg.len := legal_iff_of_bounded hb
  refine ⟨hlegal, fun a h0 hL => ?_, fun a ha => ?_, fun hw a v h0 hL => ?_, fun hL a ha => ?_, fun t h => ?_⟩
  · have ha : Legal s.cfg a := (hlegal a).2 ⟨h0, hL⟩
    exact ⟨memRead_of_legal ha, checkAddr_of_legal ha⟩
  · have ha : ¬ Legal s.cfg a := (not_legal_iff_of_bounded hb).2 ha
    exact ⟨memRead_of_not_legal ha, checkAddr_of_not_legal ha⟩
  · exact memRead_write_same hw v ((hlegal a).2 ⟨h0, hL⟩)
  · have := (hlegal a).1 ha
    omega
  · rw [step_cfg h]

end Sys2Proof.Machine
end

section
/-! SUPPORT. The decoder on canonical words (30_encoding.md R81), and what an operand resolves to in each mode once its parameter
word has been read (R87 to R90). -/

namespace Sys2Proof.Machine

/-! ### The fields of a canonical word -/

theorem decodeFields_of_canonical {w : Int} (h0 : 0 ≤ w) (h1 : w ≤ 99999) :
    decodeFields w = some ⟨w.toNat % 100, dig w.toNat 2, dig w.toNat 3, dig w.toNat 4⟩ := if_pos ⟨h0, h1⟩

/-- Settles O3: a canonical word passes the range test, and `dig w i` is the digit of weight `10 ^ i`. -/
theorem decoderReadsDecimalDigits : Obligations.DecoderReadsDecimalDigits :=
  ⟨fun _ h0 h1 => ⟨_, decodeFields_of_canonical h0 h1, rfl, rfl, rfl, rfl⟩,
    decodeFields_of_canonical (by decide) (by decide)⟩

/-! ### Resolving a parameter -/

section
variable {s : State} {k : Nat}

theorem rawParam_of_legal (hr : InRange (s.pc + k)) (hl : Legal s.cfg (s.pc + k)) :
    rawParam s k = .ok (s.mem.read (s.pc + k).toNat) := by
  rw [rawParam, chk_of_inRange hr, ok_bind, memRead_of_legal hl]

theorem relativeAddr_of_inRange {raw : Int} (hr : InRange (raw + s.rb)) : relativeAddr s raw = .ok (raw + s.rb) :=
  chk_of_inRange hr

theorem readOperand_immediate (s : State) (k : Nat) : readOperand s k .immediate = rawParam s k := rfl

theorem writeAddress_immediate (s : State) (k : Nat) :
    writeAddress s k .immediate = .error (unknownOpcodeFault s.pc .mode) := rfl

variable {raw : Int} (h : rawParam s k = .ok raw)
include h

theorem readOperand_position : readOperand s k .position = memRead s raw := by
  rw [readOperand, h, ok_bind]

theorem readOperand_relative (hr : InRange (raw + s.rb)) : readOperand s k .relative = memRead s (raw + s.rb) := by
  rw [readOperand, h, ok_bind, relativeAddr_of_inRange hr, ok_bind]

theorem writeAddress_position : writeAddress s k .position = checkAddr s raw := by
  rw [writeAddress, h, ok_bind]

theorem writeAddress_relative (hr : InRange (raw + s.rb)) : writeAddress s k .relative = checkAddr s (raw + s.rb) := by
  rw [writeAddress, h, ok_bind, relativeAddr_of_inRange hr, ok_bind]

end

theorem writeAddress_immediate_ne_ok (s : State) (k : Nat) (t : Int) : writeAddress s k .immediate ≠ .ok t := by
  simp [writeAddress_immediate]

/-- Settles O7: the parameter word is read, and each mode reads at the legal address it forms from it. -/
theorem readOperandValues : Obligations.ReadOperandValues := by
  rintro s k hr hl raw rfl
  have hraw := rawParam_of_legal hr hl
  refine ⟨fun ha => ?_, (readOperand_immediate s k).trans hraw, fun hra ha => ?_, writeAddress_immediate_ne_ok s k⟩
  · rw [readOperand_position hraw, memRead_of_legal ha]
  · rw [readOperand_relative hraw hra, memRead_of_legal ha]

/-- Settles O8: the parameter word is read, and the legal address each mode forms from it passes `CheckAddr`. -/
theorem writeTargetAddresses : Obligations.WriteTargetAddresses := by
  rintro s k hr hl raw rfl
  have hraw := rawParam_of_legal hr hl
  refine ⟨fun ha => ?_, writeAddress_immediate_ne_ok s k, fun hra ha => ?_⟩
  · rw [writeAddress_position hraw, checkAddr_of_legal ha]
  · rw [writeAddress_relative hraw hra, checkAddr_of_legal ha]

end Sys2Proof.Machine
end

section
/-! SUPPORT. The breakpoint set and the host's own operations (40_engine_cycle.md R136, R139, R140): what each adds, removes
and leaves alone, and what a terminal or waiting machine answers to `run` (R131 to R133). -/

namespace Sys2Proof.Machine

/-! ### The breakpoint set (R139) -/

theorem mem_bpsInsert {a b : Int} {l : List Int} : b ∈ bpsInsert a l ↔ b = a ∨ b ∈ l := by
  induction l with
  | nil => simp [bpsInsert]
  | cons x rest ih =>
    simp only [bpsInsert]
    split_ifs with h1 h2
    · simp
    · subst h2; simp
    · simp only [List.mem_cons, ih]; tauto

theorem mem_bpsErase {a b : Int} {l : List Int} : b ∈ bpsErase a l ↔ b ≠ a ∧ b ∈ l := by
  induction l with
  | nil => simp [bpsErase]
  | cons x rest ih =>
    simp only [bpsErase]
    split_ifs with h
    · subst h; simp only [List.mem_cons, ih]; tauto
    · have hx : b = x → b ≠ a := by rintro rfl; exact Ne.symm h
      simp only [List.mem_cons, ih]; tauto

theorem bpsInsert_bpsInsert (a : Int) (l : List Int) : bpsInsert a (bpsInsert a l) = bpsInsert a l := by
  induction l with
  | nil => simp [bpsInsert]
  | cons x rest ih =>
    rcases lt_trichotomy a x with h | rfl | h
    · simp [bpsInsert, h]
    · simp [bpsInsert]
    · simp [bpsInsert, h.not_gt, h.ne', ih]

/-- Erasing an address that is not a member changes nothing, in any list. -/
theorem bpsErase_of_not_mem {a : Int} {l : List Int} (h : a ∉ l) : bpsErase a l = l := by
  induction l with
  | nil => rfl
  | cons x rest ih =>
    rw [List.mem_cons, not_or] at h
    rw [bpsErase, if_neg h.1, ih h.2]

/-- Settles O47: insertion and erasure are described by their members; a second erasure finds nothing to remove. -/
theorem breakpointSetOperations : Obligations.BreakpointSetOperations := by
  refine fun a s => ⟨fun b => mem_bpsInsert, fun b => mem_bpsErase, ?_, ?_, rfl, rfl⟩
  · rw [setBreakpoint, setBreakpoint, bpsInsert_bpsInsert]
  · rw [clearBreakpoint, clearBreakpoint, bpsErase_of_not_mem fun h => (mem_bpsErase.1 h).1 rfl]

/-! ### The host's own operations (R140) -/

/-- The operations that run no cycle and are the host's alone (R136, R140). -/
def HostUpdate (op : HostOp) : Prop :=
  (∃ v, op = .pushInput v) ∨ (∃ a, op = .setBreakpoint a) ∨ (∃ a, op = .clearBreakpoint a) ∨ op = .saveSnapshot

/-- Such an operation writes the queue, the breakpoints and the snapshot only, and appends to the queue. -/
theorem hostUpdate_frame {op : HostOp} {s t : State} (hop : HostUpdate op) (h : applyHostOp op s = .next t) :
    t = { s with inq := t.inq, bps := t.bps, snap := t.snap } ∧ s.inq <+: t.inq := by
  rcases hop with ⟨v, rfl⟩ | ⟨a, rfl⟩ | ⟨a, rfl⟩ | rfl
  · obtain ⟨-, rfl⟩ := pushInput_eq_next.1 h
    exact ⟨rfl, List.prefix_append _ _⟩
  · cases h; exact ⟨rfl, List.prefix_rfl⟩
  · cases h; exact ⟨rfl, List.prefix_rfl⟩
  · cases h; exact ⟨rfl, List.prefix_rfl⟩

theorem Terminal.not_canCycle {s : State} (h : Terminal s) : ¬ CanCycle s := by
  rcases h with h | h <;> simp [CanCycle, h]

theorem Terminal.not_waiting {s : State} (h : Terminal s) : s.status ≠ .waitingForInput := by
  rcases h with h | h <;> simp [h]

/-- A terminal machine stays as it is under every host operation: no cycle starts, and no wait is left. -/
theorem applyHostOp_status_of_terminal {op : HostOp} {s t : State} (hs : Terminal s) (h : applyHostOp op s = .next t) :
    t.status = s.status := by
  have terminal : ∀ {u : State}, u.status = s.status → Terminal u := fun hu => by rwa [Terminal, hu]
  exact applyHostOp_induction (P := fun u => u.status = s.status)
    (hcycle := fun _ _ hc hu _ => absurd hc (terminal hu).not_canCycle)
    (hresume := fun _ hw _ hu => absurd hw (terminal hu).not_waiting)
    (hpush := fun _ _ _ hu => hu)
    (hprovide := fun u v _ hu => by rw [provideInput_status, if_neg (terminal hu).not_waiting, hu])
    (hset := fun _ _ hu => hu) (hclear := fun _ _ hu => hu) (hsave := fun _ hu => hu) rfl h

/-- Settles O49: the host's own operations write three fields, and every other move needs a machine that can cycle or waits. -/
theorem hostCannotWriteTheMachine : Obligations.HostCannotWriteTheMachine := by
  refine ⟨fun op s t hop h => ?_, fun _ _ => rfl, fun _ _ _ hs h => applyHostOp_status_of_terminal hs h⟩
  obtain ⟨ht, hq⟩ := hostUpdate_frame hop h
  rw [ht]
  exact ⟨rfl, rfl, rfl, rfl, rfl, rfl, rfl, rfl, hq⟩

/-! ### `run` on a machine that is not ready to cycle (R131 to R133) -/

theorem resume_of_terminal {s : State} (h : Terminal s) : resume s = none := by
  rcases h with h | h <;> simp [resume, h]

theorem resume_of_waiting_empty {s : State} (hw : s.status = .waitingForInput) (hq : s.inq = []) : resume s = none := by
  simp [resume, hw, hq]

theorem resume_of_waiting_input {s : State} (hw : s.status = .waitingForInput) (hq : s.inq ≠ []) :
    resume s = some { s with status := .running } := by
  simp [resume, hw, hq]

/-- Where `run` starts nothing, it answers the same state, whatever the budget (R132). -/
theorem run_of_resume_none {s : State} (h : resume s = none) :
    (∀ n, run n s = .next s) ∧ ∀ fuel, runToStop fuel s = .next s := by
  refine ⟨fun n => ?_, fun fuel => by rw [runToStop, h]⟩
  cases n with
  | zero => exact run_zero s
  | succ n => rw [run_succ, h]

theorem run_succ_of_resume {s u : State} (h : resume s = some u) (n : Nat) : run (n + 1) s = runLoop (n + 1) u := by
  rw [run_succ, h]

theorem runToStop_of_resume {s u : State} (h : resume s = some u) (fuel : Nat) : runToStop fuel s = loopToStop fuel u := by
  rw [runToStop, h]

/-- Settles O39: `resume` answers `none`, or the state a RUNNING machine starts from as well. -/
theorem terminalMachinesNeverCycle : Obligations.TerminalMachinesNeverCycle := by
  refine ⟨fun _ hs => run_of_resume_none (resume_of_terminal hs),
    fun _ hw hq => run_of_resume_none (resume_of_waiting_empty hw hq), fun s hw hq => ?_⟩
  have hwait := resume_of_waiting_input hw hq
  have hrun : resume { s with status := .running } = some { s with status := .running } := resume_of_canCycle (.inl rfl)
  exact ⟨fun n => by rw [run_succ_of_resume hwait, run_succ_of_resume hrun],
    fun fuel => by rw [runToStop_of_resume hwait, runToStop_of_resume hrun]⟩

end Sys2Proof.Machine
end

section
/-! SUPPORT. The engine cycle (40_engine_cycle.md R121, R122, R129, R130): the breakpoint check, the latch, and the statuses a
cycle ends in. -/

namespace Sys2Proof.Machine

/-! ### The breakpoint check and the latch -/

theorem cycle_of_breakpointHit {s : State} (h : BreakpointHit s) : cycle s = .next { s with status := .atBreakpoint } :=
  if_pos h

theorem cycle_of_atBreakpoint {s : State} (h : s.status = .atBreakpoint) :
    cycle s = fetchExecute { s with status := .running } := by
  rw [cycle, if_neg (fun hb => hb.2 h), clearLatch_atBreakpoint h]

/-- Settles O23: the check is the first thing a cycle does. -/
theorem breakpointStopsBeforeTheFetch : Obligations.BreakpointStopsBeforeTheFetch :=
  fun _ hpc hs => cycle_of_breakpointHit ⟨hpc, hs⟩

/-- Settles O24: the latch switches the check off for this cycle, and a state that ends RUNNING does not hold it. -/
theorem latchClearsAndRearms : Obligations.LatchClearsAndRearms :=
  fun _ hs => ⟨cycle_of_atBreakpoint hs, fun _ _ hr hpc => cycle_of_breakpointHit ⟨hpc, by simp [hr]⟩⟩

/-! ### The status an instruction and a cycle leave -/

/-- The status an instruction leaves (R129): FAULTED with its record taken, the old one, HALTED by HLT, or WAITING_FOR_INPUT
by an IN with an empty queue. -/
theorem exec_status_cases {i : Instr} {s t : State} (h : exec i s = .next t) :
    (∃ f, Raised s f ∧ t = takeFault s f) ∨ t.status = s.status ∨ (t.status = .halted ∧ i.opcode = 99) ∨
    (t.status = .waitingForInput ∧ i.opcode = 3 ∧ s.inq = []) := by
  rcases exec_cases h with hf | ⟨e, npc, he, -, rfl⟩
  · exact .inl hf
  · rw [commit_status]
    cases hn : e.newStatus with
    | none => exact .inr (.inl rfl)
    | some st => exact .inr (.inr ((evalOf_effectFrame he).status st hn))

/-- The ways a cycle ends: the breakpoint stops it, a fault is taken, or an instruction commits and leaves one of three
statuses. -/
theorem cycle_status_cases {s t : State} (hc : CanCycle s) (h : cycle s = .next t) :
    (BreakpointHit s ∧ t = { s with status := .atBreakpoint }) ∨ (∃ f, f.pc = s.pc ∧ t = takeFault s f) ∨
    t.status = .running ∨ t.status = .halted ∨ t.status = .waitingForInput := by
  rcases cycle_cases h with hb | ⟨-, h⟩
  · exact .inl hb
  rw [clearLatch_of_canCycle hc] at h
  rcases fetchExecute_cases h with ⟨f, hf, rfl⟩ | ⟨_, i, -, -, h⟩
  · exact .inr (.inl ⟨f, hf.atPc, rfl⟩)
  rcases exec_status_cases h with ⟨f, hf, rfl⟩ | hs | ⟨hs, -⟩ | ⟨hs, -, -⟩
  · exact .inr (.inl ⟨f, hf.atPc, rfl⟩)
  · exact .inr (.inr (.inl hs))
  · exact .inr (.inr (.inr (.inl hs)))
  · exact .inr (.inr (.inr (.inr hs)))

@[simp] theorem report_takeFault (s : State) (f : FaultRecord) : report (takeFault s f) = .fault (some f) := by
  simp [report]

/-- Settles O27: of the ways a step ends, only a fault that is taken leaves a machine FAULTED that was not. -/
theorem faultsArePrecise : Obligations.FaultsArePrecise := by
  intro s t hs h ht
  rcases step_cases h with ⟨-, rfl⟩ | ⟨u, hu, h⟩
  · exact absurd ht hs
  obtain ⟨st, rfl⟩ := resume_eq_withStatus hu
  rcases cycle_status_cases (resume_canCycle hu) h with ⟨-, rfl⟩ | ⟨f, hf, rfl⟩ | hst | hst | hst
  · cases ht
  · exact ⟨f, rfl, hf, report_takeFault _ f⟩
  all_goals simp [hst] at ht

/-- A cycle ends AT_BREAKPOINT by the check of a RUNNING machine only (R121). -/
theorem cycle_eq_atBreakpoint {s t : State} (hc : CanCycle s) (h : cycle s = .next t) (ht : t.status = .atBreakpoint) :
    s.pc ∈ s.bps ∧ s.status = .running ∧ t = { s with status := .atBreakpoint } := by
  rcases cycle_status_cases hc h with ⟨⟨hpc, hs⟩, rfl⟩ | ⟨f, -, rfl⟩ | hst | hst | hst
  · exact ⟨hpc, hc.resolve_right hs, rfl⟩
  · cases ht
  all_goals simp [hst] at ht

theorem provideInput_status_of_ne {v : Int} {s : State} (h : (provideInput v s).status ≠ s.status) :
    s.status = .waitingForInput ∧ (provideInput v s).status = .running := by
  rw [provideInput_status] at h ⊢
  split_ifs at h ⊢ with hw
  · exact ⟨hw, rfl⟩
  · exact absurd rfl h

/-- Settles O31: one clause for instructions, one for the breakpoint check, and three for the host side. -/
theorem statusChangesAsDocumented : Obligations.StatusChangesAsDocumented := by
  refine ⟨fun i s t hs h => ?_, fun _ _ => cycle_eq_atBreakpoint, fun s u h hne => ?_,
    fun _ _ => provideInput_status_of_ne, fun op s t hop h => ?_⟩
  · rcases exec_status_cases h with ⟨f, -, rfl⟩ | hst | hst | hst
    · exact .inr (.inr (.inr ⟨rfl, f, rfl⟩))
    · exact .inl (hst.trans hs)
    · exact .inr (.inl hst)
    · exact .inr (.inr (.inl hst))
  · rcases resume_cases h with ⟨-, rfl⟩ | ⟨hw, -, hu⟩
    · exact absurd rfl hne
    · exact ⟨hw, hu⟩
  · rw [(hostUpdate_frame hop h).1]

end Sys2Proof.Machine
end

section
/-! SUPPORT. HLT (46_halt_and_illegal.md R210): the words that decode to it, its commit, and a `run` whose first cycle stops. -/

namespace Sys2Proof.Machine

/-! ### The words of HLT and its commit -/

/-- Every canonical word with residue 99 is HLT, with the mode digits that stand in the word. -/
theorem decode_of_mod_eq_99 {w : Int} (h0 : 0 ≤ w) (h1 : w ≤ 99999) (h : w % 100 = 99) :
    decode w = .ok (.hlt (.ofDigit (dig w.toNat 2)) (.ofDigit (dig w.toNat 3)) (.ofDigit (dig w.toNat 4))) := by
  have hop : w.toNat % 100 = 99 := by omega
  simp only [decode, decodeFields_of_canonical h0 h1, instrOfFields, hop]

/-- HLT commits HALTED where it stands: its delta is 0, so a `pc` in range passes the check of the next pc. -/
theorem exec_hlt {s : State} (h : InRange s.pc) (m1 m2 m3 : Mode) :
    exec (.hlt m1 m2 m3) s = .next { s with status := .halted, cycles := s.cycles + 1 } := by
  have hpc : s.pc = s.pc + (0 : Nat) := (Int.add_zero _).symm
  have hnext : nextPc s (.delta 0) = .ok s.pc := nextPc_delta_eq_ok.2 ⟨hpc ▸ h, hpc⟩
  rw [exec_eq_finish, evalOf, finish_ok hnext]
  rfl

/-- A HLT word at `pc` halts the machine, whatever its mode digits are. -/
theorem fetchExecute_of_mod_eq_99 {s : State} {w : Int} (hf : fetch s = .ok w) (h0 : 0 ≤ w) (h1 : w ≤ 99999)
    (h : w % 100 = 99) (hpc : InRange s.pc) :
    fetchExecute s = .next { s with status := .halted, cycles := s.cycles + 1 } := by
  rw [fetchExecute_of_decode hf (decode_of_mod_eq_99 h0 h1 h), exec_hlt hpc]

/-! ### A `run` whose first cycle stops -/

/-- Where the first cycle leaves a machine that is not RUNNING, every budget but 0 ends there (40_engine_cycle.md R132). -/
theorem run_succ_of_cycle_stops {s t : State} (hc : CanCycle s) (h : cycle s = .next t) (ht : t.status ≠ .running) (n : Nat) :
    run (n + 1) s = .next t := by
  rw [run_succ_of_resume (resume_of_canCycle hc), runLoop_succ h, if_neg ht]

/-- Settles O22: a breakpoint stops the first cycle before the fetch; with the latch set, the next one fetches a word of
residue 99 and halts. -/
theorem hltExecutes : Obligations.HltExecutes := by
  refine ⟨fun w h0 h1 h => ⟨_, _, _, decode_of_mod_eq_99 h0 h1 h⟩, fun _ _ _ => rfl, fun m1 m2 m3 _ hpc => exec_hlt hpc m1 m2 m3,
    fun _ hs => run_of_resume_none (resume_of_terminal (.inl hs)), fun s m1 m2 m3 hs hb hpc hf hwf n => ⟨?_, ?_⟩⟩
  · have hit : BreakpointHit s := ⟨hb, by simp [hs]⟩
    exact run_succ_of_cycle_stops (.inl hs) (cycle_of_breakpointHit hit) (by simp) n
  · obtain ⟨h0, h1, h99⟩ := Laws.CanonicalWord.hlt m1 m2 m3 hwf
    have hhalt : cycle { s with status := .atBreakpoint } = .next { s with status := .halted, cycles := s.cycles + 1 } :=
      (cycle_of_atBreakpoint rfl).trans (fetchExecute_of_mod_eq_99 (s := { s with status := .running }) hf h0 h1 h99 hpc)
    exact run_succ_of_cycle_stops (.inr rfl) hhalt (by simp) n

end Sys2Proof.Machine
end

section
/-! SUPPORT. What becomes of a terminal machine in the host's hands (60_exceptions.md R225, 40_engine_cycle.md R131), and what
the host is told of a suspension and of a fault (R134, 60_exceptions.md R226). -/

namespace Sys2Proof.Machine

/-! ### Host sessions from a terminal machine (R225) -/

/-- A property that every host operation keeps is kept by every host session. -/
theorem applyHostOps_induction {P : State → Prop} (hop : ∀ op s t, P s → applyHostOp op s = .next t → P t)
    {ops : List HostOp} {s t : State} (hp : P s) (h : applyHostOps ops s = .next t) : P t := by
  induction ops generalizing s with
  | nil => cases h; exact hp
  | cons op rest ih =>
    rw [applyHostOps] at h
    split at h
    · rename_i u hu; exact ih (hop op s u hp hu) h
    · cases h
    · cases h

/-- `t` is `s` but for the elements the host itself writes: the queue, the breakpoints and the snapshot (R136, R140). -/
def SameMachine (s t : State) : Prop := ∃ q b n, t = { s with inq := q, bps := b, snap := n }

theorem SameMachine.refl (s : State) : SameMachine s s := ⟨_, _, _, rfl⟩

theorem SameMachine.status_eq {s t : State} (h : SameMachine s t) : t.status = s.status := by
  obtain ⟨_, _, _, rfl⟩ := h; rfl

theorem SameMachine.trans {s t u : State} (h : SameMachine s t) (h' : SameMachine t u) : SameMachine s u := by
  obtain ⟨_, _, _, rfl⟩ := h
  obtain ⟨_, _, _, rfl⟩ := h'
  exact ⟨_, _, _, rfl⟩

/-- Where there is no wait to leave, `provide_input_and_run` starts from the machine with the value appended. -/
theorem provideInput_of_ne_waiting {s : State} (h : s.status ≠ .waitingForInput) (v : Int) :
    provideInput v s = { s with inq := s.inq ++ [v] } := by
  rw [provideInput, if_neg h]

/-- A terminal machine is the same machine after every host operation: no cycle starts, and no wait is left. -/
theorem applyHostOp_sameMachine {op : HostOp} {s t : State} (hs : Terminal s) (h : applyHostOp op s = .next t) :
    SameMachine s t := by
  have terminal : ∀ {u}, SameMachine s u → Terminal u := fun hu => by rwa [Terminal, hu.status_eq]
  exact applyHostOp_induction (P := SameMachine s)
    (hcycle := fun _ _ hc hu _ => absurd hc (terminal hu).not_canCycle)
    (hresume := fun _ hw _ hu => absurd hw (terminal hu).not_waiting)
    (hpush := fun _ _ _ hu => hu.trans ⟨_, _, _, rfl⟩)
    (hprovide := fun u v _ hu => hu.trans ⟨_, _, _, provideInput_of_ne_waiting (terminal hu).not_waiting v⟩)
    (hset := fun _ _ hu => hu.trans ⟨_, _, _, rfl⟩) (hclear := fun _ _ hu => hu.trans ⟨_, _, _, rfl⟩)
    (hsave := fun _ hu => hu.trans ⟨_, _, _, rfl⟩) (SameMachine.refl s) h

theorem applyHostOps_sameMachine {ops : List HostOp} {s t : State} (hs : Terminal s) (h : applyHostOps ops s = .next t) :
    SameMachine s t :=
  applyHostOps_induction (P := SameMachine s)
    (fun _ _ _ hu hop => hu.trans (applyHostOp_sameMachine (by rwa [Terminal, hu.status_eq]) hop)) (.refl s) h

/-- Settles O40: FAULTED is terminal, so every host session leaves the same machine. -/
theorem faultIsPermanent : Obligations.FaultIsPermanent := by
  intro ops s t hs h
  obtain ⟨q, b, n, rfl⟩ := applyHostOps_sameMachine (.inr hs) h
  exact ⟨hs, rfl, rfl, rfl, rfl, rfl, rfl, rfl, rfl⟩

/-! ### What is reported (R134, R226) -/

theorem report_of_ne_faulted {s : State} (h : s.status ≠ .faulted) : report s = .stopped s.status := if_neg h

theorem report_eq_fault {s : State} {f : Option FaultRecord} : report s = .fault f ↔ s.status = .faulted ∧ s.fault = f := by
  unfold report
  split
  · rename_i hs; simp [hs]
  · rename_i hs; simp [hs]

/-- A sound machine that is not FAULTED holds no record. -/
theorem StateInv.fault_eq_none {s : State} (hs : StateInv s) (h : s.status ≠ .faulted) : s.fault = none := by
  rw [← Option.not_isSome_iff_eq_none, ← hs.faultHeld]
  exact h

/-- Settles O41: the report looks at the status only, and the invariant ties the record to FAULTED. -/
theorem suspensionsAreNotFailures : Obligations.SuspensionsAreNotFailures := by
  refine fun s hs => ⟨fun hsusp => ?_, fun f hf => ?_, report_of_ne_faulted⟩
  · have hne : s.status ≠ .faulted := by rcases hsusp with h | h <;> simp [h]
    exact ⟨hs.fault_eq_none hne, report_of_ne_faulted hne⟩
  · obtain ⟨hst, rfl⟩ := report_eq_fault.1 hf
    exact ⟨hst, rfl, hs.faultHeld.1 hst⟩

end Sys2Proof.Machine
end

section
/-! SUPPORT. Encoding and decoding undo each other (30_encoding.md R81, R82, R94, R98), which words do not decode (decision
D12), and the words of the spec's assembly language (R99, R100). -/

namespace Sys2Proof

/-! ### The opcode map (R94) -/

theorem Instr.wellFormed_iff {i : Instr} : i.wellFormed = true ↔
    i.modes.1.wellFormed = true ∧ i.modes.2.1.wellFormed = true ∧ i.modes.2.2.wellFormed = true := by
  simp only [Instr.wellFormed, Bool.and_eq_true, and_assoc]

theorem Instr.opcode_lt (i : Instr) : i.opcode < 100 := by cases i <;> simp [Instr.opcode]

/-- The opcode and the digits of the modes name a well-formed instruction. -/
theorem instrOfFields_opcode_digits {i : Instr} (h : i.wellFormed = true) :
    instrOfFields ⟨i.opcode, i.modes.1.digit, i.modes.2.1.digit, i.modes.2.2.digit⟩ = some i := by
  obtain ⟨h1, h2, h3⟩ := Instr.wellFormed_iff.1 h
  simp only [instrOfFields, ofDigit_digit h1, ofDigit_digit h2, ofDigit_digit h3]
  cases i <;> rfl

/-- An instruction that fields name has their opcode and the modes of their digits. -/
theorem opcode_modes_of_instrOfFields {f : Fields} {i : Instr} (h : instrOfFields f = some i) :
    i.opcode = f.op ∧ i.modes = (.ofDigit f.m1, .ofDigit f.m2, .ofDigit f.m3) := by
  unfold instrOfFields at h
  split at h <;> cases h
  all_goals rename_i hop; exact ⟨hop.symm, rfl⟩

/-- The two-digit opcodes that name nothing. -/
theorem instrOfFields_eq_none {f : Fields} (h : f.op < 100) :
    instrOfFields f = none ↔ f.op = 0 ∨ (10 ≤ f.op ∧ f.op ≤ 98) := by
  unfold instrOfFields
  split
  case h_11 => simp only [imp_false, true_iff] at *; omega
  all_goals rename_i hop; simp [hop]

/-! ### The decoder, in terms of the fields -/

theorem decodeFields_eq_some {w : Int} {f : Fields} : decodeFields w = some f ↔
    (0 ≤ w ∧ w ≤ 99999) ∧ f = ⟨w.toNat % 100, dig w.toNat 2, dig w.toNat 3, dig w.toNat 4⟩ := by
  unfold decodeFields
  split <;> simp_all [eq_comm]

theorem decodeFields_eq_none {w : Int} : decodeFields w = none ↔ w < 0 ∨ 99999 < w := by
  unfold decodeFields
  split
  · simp only [reduceCtorEq, false_iff]; omega
  · simp only [true_iff]; omega

theorem decode_eq_ok {w : Int} {i : Instr} :
    decode w = .ok i ↔ ∃ f, decodeFields w = some f ∧ instrOfFields f = some i := by
  unfold decode
  cases decodeFields w with
  | none => simp
  | some f => cases h : instrOfFields f <;> simp [h]

theorem decode_eq_noncanonical {w : Int} : decode w = .error .noncanonical ↔ decodeFields w = none := by
  unfold decode
  cases decodeFields w with
  | none => simp
  | some f => cases h : instrOfFields f <;> simp [h]

theorem decode_eq_undefinedOpcode {w : Int} {op : Nat} :
    decode w = .error (.undefinedOpcode op) ↔ ∃ f, decodeFields w = some f ∧ instrOfFields f = none ∧ f.op = op := by
  unfold decode
  cases decodeFields w with
  | none => simp
  | some f => cases h : instrOfFields f <;> simp [h]

/-! ### Encoding and decoding undo each other (R98) -/

/-- Fields that fit their digits are the fields of the word composed from them. -/
theorem decodeFields_encodeFields {f : Fields} (ho : f.op < 100) (h1 : f.m1 < 10) (h2 : f.m2 < 10) (h3 : f.m3 < 10) :
    decodeFields (encodeFields f) = some f := by
  obtain ⟨hop, hm1, hm2, hm3, hle⟩ := compose_digits ho h1 h2 h3
  refine decodeFields_eq_some.2 ⟨⟨Int.natCast_nonneg _, Int.ofNat_le.2 hle⟩, ?_⟩
  simp only [encodeFields, Int.toNat_natCast, hop, hm1, hm2, hm3]

/-- A canonical word is composed from its fields. -/
theorem encodeFields_of_decodeFields {w : Int} {f : Fields} (h : decodeFields w = some f) : encodeFields f = w := by
  obtain ⟨⟨h0, h1⟩, rfl⟩ := decodeFields_eq_some.1 h
  rw [encodeFields, digits_compose (by omega), Int.toNat_of_nonneg h0]

/-- Settles O1: the digits of a well-formed instruction fit their fields, and its opcode and digits name it. -/
theorem decodeUndoesEncode : Obligations.DecodeUndoesEncode := by
  intro i h
  obtain ⟨h1, h2, h3⟩ := Instr.wellFormed_iff.1 h
  exact decode_eq_ok.2 ⟨_, decodeFields_encodeFields i.opcode_lt (digit_lt h1) (digit_lt h2) (digit_lt h3),
    instrOfFields_opcode_digits h⟩

/-- Settles O2: the modes of a decoded instruction come from digits, so they are well-formed and give the digits back. -/
theorem encodeUndoesDecode : Obligations.EncodeUndoesDecode := by
  intro w i h
  obtain ⟨f, hf, hi⟩ := decode_eq_ok.1 h
  obtain ⟨hop, hm⟩ := opcode_modes_of_instrOfFields hi
  constructor
  · obtain ⟨-, rfl⟩ := decodeFields_eq_some.1 hf
    simp [Instr.wellFormed_iff, hm, ofDigit_wellFormed, dig_lt]
  · simp only [encode, hop, hm, digit_ofDigit]
    exact encodeFields_of_decodeFields hf

/-- Settles O4: the range test decides canonicity, the opcode map the rest, and the fields are the digits of the word. -/
theorem decodeClassifiesEveryWord : Obligations.DecodeClassifiesEveryWord := by
  refine fun w => ⟨decode_eq_noncanonical.trans decodeFields_eq_none, fun op => ?_, fun i h => ?_⟩
  · rw [decode_eq_undefinedOpcode]
    constructor
    · rintro ⟨f, hf, hn, rfl⟩
      obtain ⟨⟨h0, h1⟩, rfl⟩ := decodeFields_eq_some.1 hf
      exact ⟨h0, h1, by dsimp only; omega, (instrOfFields_eq_none (Nat.mod_lt _ (by decide))).1 hn⟩
    · rintro ⟨h0, h1, hop, hu⟩
      have hop' : w.toNat % 100 = op := by omega
      refine ⟨_, decodeFields_eq_some.2 ⟨⟨h0, h1⟩, rfl⟩, (instrOfFields_eq_none (Nat.mod_lt _ (by decide))).2 ?_, hop'⟩
      rwa [hop']
  · obtain ⟨f, hf, hi⟩ := decode_eq_ok.1 h
    obtain ⟨⟨h0, h1⟩, rfl⟩ := decodeFields_eq_some.1 hf
    obtain ⟨hop, hm⟩ := opcode_modes_of_instrOfFields hi
    simp only [hop, hm, digit_ofDigit, dig]
    omega

/-! ### Words written out -/

/-- Settles O5: each word is decoded by evaluation. -/
theorem specWordsDecode : Obligations.SpecWordsDecode := by
  unfold Obligations.SpecWordsDecode
  decide

/-- Settles O6: no line has a label, so the assembler evaluates to the encoded word and the numbers as they stand; a MOV is
evaluated for each of its operand forms. -/
theorem pseudoInstructionsExpand : Obligations.PseudoInstructionsExpand := by
  refine fun t u => ⟨rfl, rfl, rfl, rfl, fun src hsrc => ⟨fun dst hdst => ?_, ?_⟩, rfl⟩
  · simp only [List.mem_cons, List.not_mem_nil, or_false] at hsrc hdst
    rcases hsrc with rfl | rfl | rfl <;> rcases hdst with rfl | rfl <;> rfl
  · rfl

end Sys2Proof
end

section
/-! SUPPORT. Memory as a function of its reads (20_memory.md R53, decision D38), the image of a program (70_reset_and_hazards.md
R262), and the snapshot diff (60_exceptions.md R241). -/

namespace Sys2Proof.Machine

/-! ### Unbounded memory (R53) -/

theorem legal_iff_of_unbounded {c : Config} (hu : c.policy = .unbounded) {a : Int} : Legal c a ↔ 0 ≤ a := by
  simp [Legal, hu]

/-- An address that no entry lists reads as unlisted. -/
theorem read_of_unlisted {m : Memory} {a : Nat} (h : ∀ p ∈ m, p.1 ≠ a) : m.read a = unlistedWord :=
  (read_mem m a).resolve_right fun hm => h _ hm rfl

/-- Settles O11: under `Unbounded` legality is `0 ≤ a`, and the arbiter's answers follow from legality. -/
theorem unboundedMemoryDefaultsToZero : Obligations.UnboundedMemoryDefaultsToZero := by
  intro s hu
  have legal {a : Int} (h : 0 ≤ a) : Legal s.cfg a := (legal_iff_of_unbounded hu).2 h
  refine ⟨fun a h => ⟨memRead_of_legal (legal h), checkAddr_of_legal (legal h)⟩, fun a h => ?_, fun a h => ?_,
    fun hw a v h => memRead_write_same hw v (legal h)⟩
  · have hl : ¬ Legal s.cfg a := fun hl => absurd hl.1 (not_le.2 h)
    exact ⟨memRead_of_not_legal hl, checkAddr_of_not_legal hl⟩
  · rw [memRead_of_legal (legal (Int.natCast_nonneg a)), Int.toNat_natCast, read_of_unlisted h, unlistedWord]

/-! ### Canonical memories that read alike (D38) -/

theorem wfFrom_cons {lo k : Nat} {w : Int} {rest : Memory} : Memory.wfFrom lo ((k, w) :: rest) = true ↔
    lo ≤ k ∧ w ≠ unlistedWord ∧ Memory.wfFrom (k + 1) rest = true := by
  simp only [Memory.wfFrom, Bool.and_eq_true, decide_eq_true_eq, and_assoc]

theorem read_cons_self (k : Nat) (w : Int) (rest : Memory) : Memory.read ((k, w) :: rest) k = w := by
  simp [Memory.read]

theorem read_cons_of_lt {k a : Nat} (h : k < a) (w : Int) (rest : Memory) :
    Memory.read ((k, w) :: rest) a = Memory.read rest a := by
  simp [Memory.read, h.not_gt, h.ne']

/-- A canonical memory that reads a listed word as listed cannot begin above it. -/
theorem wfFrom_le_of_read_eq {lo k : Nat} {w : Int} {n : Memory} (hw : w ≠ unlistedWord) (hn : Memory.wfFrom lo n = true)
    (hr : w = n.read k) : lo ≤ k := by
  by_contra hlt
  exact hw (hr.trans (read_below (not_le.1 hlt) hn))

/-- Canonical memories that read alike begin with the same entry, and what follows reads alike again. -/
theorem eq_of_read_eq_from {m n : Memory} {lo lo' : Nat} (hm : Memory.wfFrom lo m = true) (hn : Memory.wfFrom lo' n = true)
    (hr : ∀ a, m.read a = n.read a) : m = n := by
  induction m generalizing n lo lo' with
  | nil =>
    cases n with
    | nil => rfl
    | cons kw rest =>
      obtain ⟨-, hw, -⟩ := wfFrom_cons.1 hn
      have hk := hr kw.1
      rw [read_cons_self] at hk
      exact absurd hk.symm hw
  | cons kw rest ih =>
    obtain ⟨k, w⟩ := kw
    obtain ⟨-, hw, hrest⟩ := wfFrom_cons.1 hm
    have hk : w = n.read k := by rw [← hr k, read_cons_self]
    cases n with
    | nil => exact absurd hk hw
    | cons kw' rest' =>
      obtain ⟨k', w'⟩ := kw'
      obtain ⟨-, hw', hrest'⟩ := wfFrom_cons.1 hn
      have hk' : w' = Memory.read ((k, w) :: rest) k' := by rw [hr k', read_cons_self]
      obtain rfl : k = k' := le_antisymm
        (wfFrom_le_of_read_eq hw' (wfFrom_cons.2 ⟨le_rfl, hw, hrest⟩) hk')
        (wfFrom_le_of_read_eq hw (wfFrom_cons.2 ⟨le_rfl, hw', hrest'⟩) hk)
      obtain rfl : w = w' := by rw [hk, read_cons_self]
      have hr' (a : Nat) : Memory.read rest a = Memory.read rest' a := by
        rcases Nat.lt_or_ge k a with h | h
        · rw [← read_cons_of_lt h w rest, hr a, read_cons_of_lt h]
        · rw [read_below (Nat.lt_succ_of_le h) hrest, read_below (Nat.lt_succ_of_le h) hrest']
      rw [ih hrest hrest' hr']

/-- Settles O12, by induction over the two lists. -/
theorem equalReadsMeanEqualMemory : Obligations.EqualReadsMeanEqualMemory :=
  fun _ _ hm hn hr => eq_of_read_eq_from hm hn hr

/-! ### The machine a host constructs (R262) -/

/-- The image of a program from address `a` on reads as the program, and 0 behind it. -/
theorem read_ofWords (ws : List Int) (a i : Nat) : (Memory.ofWords a ws).read (a + i) = ws.getD i 0 := by
  induction ws generalizing a i with
  | nil => rfl
  | cons w rest ih =>
    cases i with
    | zero =>
      by_cases hw : w = unlistedWord
      · simpa [Memory.ofWords, hw] using read_below (Nat.lt_succ_self a) (ofWords_wfFrom rest (a + 1))
      · simp [Memory.ofWords, hw, read_cons_self]
    | succ i =>
      have hi : a + (i + 1) = a + 1 + i := by omega
      by_cases hw : w = unlistedWord
      · simp [Memory.ofWords, hw, hi, ih]
      · simp [Memory.ofWords, hw, hi, ih, read_cons_of_lt (show a < a + 1 + i by omega)]

theorem read_image (ws : List Int) (i : Nat) : (Memory.ofWords 0 ws).read i = ws.getD i 0 := by
  simpa only [Nat.zero_add] using read_ofWords ws 0 i

/-- Settles O52: the constructor writes the elements out; its memory is the image of the program. -/
theorem constructedMachine : Obligations.ConstructedMachine := by
  refine ⟨fun program input policy hp hi => ⟨_, if_pos ⟨hp, hi⟩, fun i h => ?_, fun i h => ?_, ofWords_wfFrom program 0,
    rfl, rfl, rfl, rfl, rfl, rfl, rfl, rfl, rfl, rfl, rfl, rfl⟩, fun _ _ _ h => if_neg h, rfl⟩
  · exact (read_image program i).trans (List.getD_eq_getElem program 0 h)
  · exact (read_image program i).trans (List.getD_eq_default program 0 h)

/-! ### The snapshot diff (R241) -/

theorem mem_foldr_addrInsert {b : Nat} {l : List Nat} : b ∈ l.foldr addrInsert [] ↔ b ∈ l := by
  induction l with
  | nil => rfl
  | cons a rest ih => rw [List.foldr_cons, mem_addrInsert, ih, List.mem_cons]

theorem foldr_addrInsert_rising (l : List Nat) : (l.foldr addrInsert []).Pairwise (· < ·) := by
  induction l with
  | nil => exact .nil
  | cons a rest ih => exact addrInsert_rising ih a

/-- An address where two memories differ is listed by one of them. -/
theorem mem_listedAddrs_of_read_ne {m n : Memory} {a : Nat} (h : m.read a ≠ n.read a) : a ∈ listedAddrs m n := by
  refine mem_foldr_addrInsert.2 (List.mem_map.2 ?_)
  rcases read_mem m a with hm | hm
  · rcases read_mem n a with hn | hn
    · exact absurd (hm.trans hn.symm) h
    · exact ⟨_, List.mem_append_right m hn, rfl⟩
  · exact ⟨_, List.mem_append_left n hm, rfl⟩

theorem mem_snapshotDiff {s : State} {a : Nat} {old new : Int} : (a, old, new) ∈ snapshotDiff s ↔
    Legal s.cfg a ∧ old = s.snap.read a ∧ new = s.mem.read a ∧ old ≠ new := by
  simp only [snapshotDiff, List.mem_filterMap, Option.ite_none_right_eq_some, Option.some.injEq, Prod.mk.injEq]
  constructor
  · rintro ⟨_, -, ⟨hl, hne⟩, rfl, rfl, rfl⟩
    exact ⟨hl, rfl, rfl, hne⟩
  · rintro ⟨hl, rfl, rfl, hne⟩
    exact ⟨a, mem_listedAddrs_of_read_ne hne, ⟨hl, hne⟩, rfl, rfl, rfl⟩

/-- The diff keeps the order of the listed addresses, which rise. -/
theorem snapshotDiff_rising (s : State) : ((snapshotDiff s).map Prod.fst).Pairwise (· < ·) := by
  rw [List.pairwise_map, snapshotDiff, List.pairwise_filterMap]
  refine (foldr_addrInsert_rising _).imp fun {a b} hab x hx y hy => ?_
  obtain ⟨-, ⟨⟩⟩ := Option.ite_none_right_eq_some.1 hx
  obtain ⟨-, ⟨⟩⟩ := Option.ite_none_right_eq_some.1 hy
  exact hab

/-- Settles O51: every differing address is listed, the listed addresses rise, and a memory does not differ from its copy. -/
theorem snapshotDiffIsExact : Obligations.SnapshotDiffIsExact := by
  refine fun s => ⟨fun a old new => mem_snapshotDiff, snapshotDiff_rising s, List.eq_nil_iff_forall_not_mem.2 ?_⟩
  rintro ⟨a, old, new⟩ h
  obtain ⟨-, rfl, rfl, hne⟩ := mem_snapshotDiff.1 h
  exact hne rfl

end Sys2Proof.Machine
end

section
/-! SUPPORT. The invariant of the state record (10_state.md R22 to R36): a status change, a fault taken, a commit and the host's
own updates keep it, so every cycle and every host operation does, and construction begins with it. -/

namespace Sys2Proof.Machine

/-! ### The moves of one cycle -/

theorem CanCycle.ne_faulted {s : State} (h : CanCycle s) : s.status ≠ .faulted := by
  rcases h with h | h <;> simp [h]

/-- One status may replace another where neither is FAULTED. -/
theorem StateInv.withStatus {s : State} (h : StateInv s) {st : Status} (hs : s.status ≠ .faulted) (hst : st ≠ .faulted) :
    StateInv { s with status := st } :=
  { h with faultHeld := iff_of_false hst fun hf => hs (h.faultHeld.2 hf) }

theorem StateInv.takeFault {s : State} {f : FaultRecord} (h : StateInv s) (hf : Raised s f) : StateInv (takeFault s f) :=
  { h with
    faultHeld := iff_of_true rfl rfl
    faultShape := by rintro _ ⟨⟩; exact ⟨hf.shape, hf.atPc⟩ }

/-- The next pc of a sound effect lies in `[0, WMAX]` (R23). -/
theorem EffectOk.nextPc_range {s : State} {e : Effect} {npc : Int} (he : EffectOk s e) (hpc : 0 ≤ s.pc)
    (hn : nextPc s e.next = .ok npc) : 0 ≤ npc ∧ npc ≤ wMax := by
  cases hx : e.next with
  | delta d =>
    rw [hx] at hn
    obtain ⟨hr, rfl⟩ := nextPc_delta_eq_ok.1 hn
    exact ⟨Int.add_nonneg hpc (Int.natCast_nonneg d), hr.2⟩
  | jump b =>
    rw [hx] at hn
    cases hn
    obtain ⟨h0, hr⟩ := he.jump npc hx
    exact ⟨h0, hr.2⟩

theorem StateInv.commit {s : State} {e : Effect} {npc : Int} (h : StateInv s) (hs : s.status ≠ .faulted) (he : EffectOk s e)
    (hn : nextPc s e.next = .ok npc) (ht : (commit s e npc).status ≠ .faulted) : StateInv (commit s e npc) where
  memOk := by
    rw [commit_mem, commit_cfg]
    cases hw : e.write with
    | none => exact h.memOk
    | some tv =>
      obtain ⟨hl, hv⟩ := he.target tv.1 tv.2 hw
      exact h.memOk.write hl hv
  snapOk := h.snapOk
  pcRange := he.nextPc_range h.pcRange.1 hn
  rbRange := by
    rw [commit_rb]
    cases hr : e.newRb with
    | none => exact h.rbRange
    | some r => exact he.base r hr
  inputWords := by
    rw [commit_inq]
    split
    · exact fun v hv => h.inputWords v (List.mem_of_mem_tail hv)
    · exact h.inputWords
  outputWords := by
    rw [commit_outlog]
    intro v hv
    rcases List.mem_append.1 hv with hv | hv
    · exact h.outputWords v hv
    · exact he.output v (Option.mem_toList.1 hv)
  lastOutput := by
    rw [commit_lastOut, commit_outlog]
    cases e.emit with
    | none => simpa using h.lastOutput
    | some v => simp
  breakpointSet := h.breakpointSet
  faultHeld := iff_of_false ht (by simp [h.fault_eq_none hs])
  faultShape := by simp [h.fault_eq_none hs]

theorem StateInv.exec {i : Instr} {s t : State} (h : StateInv s) (hs : s.status ≠ .faulted) (hx : exec i s = .next t) :
    StateInv t := by
  rcases exec_cases hx with ⟨f, hf, rfl⟩ | ⟨e, npc, he, hn, rfl⟩
  · exact h.takeFault hf
  · exact h.commit hs (evalOf_effectOk h.memOk h.inputWords he) hn (commit_status_ne_faulted npc he hs)

theorem StateInv.cycle {s t : State} (h : StateInv s) (hc : CanCycle s) (hx : cycle s = .next t) : StateInv t := by
  rcases cycle_cases hx with ⟨-, rfl⟩ | ⟨-, hx⟩
  · exact h.withStatus hc.ne_faulted (by simp)
  · rw [clearLatch_of_canCycle hc] at hx
    have hrun : StateInv { s with status := .running } := h.withStatus hc.ne_faulted (by simp)
    rcases fetchExecute_cases hx with ⟨f, hf, rfl⟩ | ⟨_, i, -, -, hx⟩
    · exact hrun.takeFault hf
    · exact hrun.exec (by simp) hx

/-! ### The host's moves -/

theorem StateInv.push {s : State} {v : Int} (h : StateInv s) (hv : InRange v) : StateInv { s with inq := s.inq ++ [v] } :=
  { h with
    inputWords := fun x hx => by
      rcases List.mem_append.1 hx with hx | hx
      · exact h.inputWords x hx
      · rwa [List.mem_singleton.1 hx] }

theorem StateInv.provideInput {s : State} {v : Int} (h : StateInv s) (hv : InRange v) : StateInv (provideInput v s) := by
  by_cases hw : s.status = .waitingForInput
  · rw [Machine.provideInput, if_pos hw]
    exact (h.push hv).withStatus (by simp [hw]) (by simp)
  · rw [provideInput_of_ne_waiting hw]
    exact h.push hv

theorem applyHostOp_stateInv {op : HostOp} {s t : State} (h : StateInv s) (hop : applyHostOp op s = .next t) : StateInv t :=
  applyHostOp_induction (P := StateInv)
    (hcycle := fun _ _ hc hs hx => hs.cycle hc hx)
    (hresume := fun _ hw _ hs => hs.withStatus (by simp [hw]) (by simp))
    (hpush := fun _ _ hv hs => hs.push hv)
    (hprovide := fun _ _ hv hs => hs.provideInput hv)
    (hset := fun _ a hs => { hs with breakpointSet := bpsInsert_wf hs.breakpointSet a })
    (hclear := fun _ a hs => { hs with breakpointSet := bpsErase_wf hs.breakpointSet a })
    (hsave := fun _ hs => { hs with snapOk := hs.memOk }) h hop

theorem construct_stateInv {program input : List Int} {policy : Policy} {s : State}
    (h : construct program input policy = .next s) : StateInv s := by
  unfold construct at h
  split at h
  · rename_i hwords
    cases h
    exact {
      memOk := ofWords_memOk hwords.1 policy
      snapOk := ofWords_memOk hwords.1 policy
      pcRange := by simp
      rbRange := (by decide : InRange 0)
      inputWords := hwords.2
      outputWords := List.forall_mem_nil _
      lastOutput := rfl
      breakpointSet := rfl
      faultHeld := by simp
      faultShape := by simp }
  · cases h

/-! ### The statements -/

/-- Settles O57: the invariant is kept by each move a host operation is made of. -/
theorem hostOperationsKeepTheInvariant : Obligations.HostOperationsKeepTheInvariant :=
  ⟨fun _ _ _ _ h => construct_stateInv h, fun _ _ _ hs h => applyHostOp_stateInv hs h⟩

/-- Settles O55: a step leaves the state, or is a cycle of the machine with its wait left. -/
theorem stepKeepsTheInvariant : Obligations.StepKeepsTheInvariant := by
  intro s t hs h
  rcases step_cases h with ⟨-, rfl⟩ | ⟨u, hu, hx⟩
  · exact hs
  rcases resume_cases hu with ⟨hc, rfl⟩ | ⟨hw, -, rfl⟩
  · exact hs.cycle hc hx
  · exact (hs.withStatus (by simp [hw]) (by simp)).cycle (.inl rfl) hx

/-- Settles O54: the reset state is the machine constructed from nothing. -/
theorem resetMeetsTheInvariant : Obligations.ResetMeetsTheInvariant :=
  construct_stateInv (program := []) (input := []) (policy := .unbounded) rfl

/-- Settles O56, by induction on how the state was brought about. -/
theorem reachableStatesMeetTheInvariant : Obligations.ReachableStatesMeetTheInvariant := by
  intro s h
  induction h with
  | constructed program input policy s h => exact construct_stateInv h
  | moved s t op _ hop ih => exact applyHostOp_stateInv ih hop

end Sys2Proof.Machine
end

section
/-! SUPPORT. The frame of an instruction (10_state.md R28 to R36, 20_memory.md R56, 60_exceptions.md R221 to R224): where each
part of its effect comes from, which record it can raise, and which elements its evaluation does not read. -/

namespace Sys2Proof.Machine

/-! ### Where an effect comes from -/

/-- Where the parts of an instruction's effect come from: the queue and the outputs change by IN and OUT (42_io.md R170, R171),
a word is written at the target only, and it is the one the instruction stores (30_encoding.md R86). -/
structure EffectSource (i : Instr) (s : State) (e : Effect) : Prop where
  pop : e.pop = true → i.opcode = 3 ∧ ∃ x rest t, s.inq = x :: rest ∧ writeAddress s 1 i.modes.1 = .ok t ∧
    e.write = some (t, x)
  emit : ∀ v, e.emit = some v → i.opcode = 4 ∧ readOperand s 1 i.modes.1 = .ok v
  target : ∀ t v, e.write = some (t, v) → ∃ k m, storeParam i = some (k, m) ∧ writeAddress s k m = .ok t
  stored : ∀ k m t v, storeParam i = some (k, m) → writeAddress s k m = .ok t → StoresWord s i v → e.write = some (t, v)

/-- An instruction without a target whose effect asks for a register or a jump only. -/
theorem effectSource_of_none {i : Instr} {s : State} {e : Effect} (hi : storeParam i = none) (hp : e.pop = false)
    (he : e.emit = none) (hw : e.write = none) : EffectSource i s e :=
  ⟨by simp [hp], by simp [he], by simp [hw], by simp [hi]⟩

/-- An instruction of format F4 writes, at its third parameter, the word its result function answers. -/
theorem effectSource_of_evalBinary {i : Instr} {m1 m2 m3 : Mode} {g : Int → Int → Except FaultRecord Int} {s : State}
    {e : Effect} (hi : storeParam i = some (3, m3))
    (hg : ∀ v, StoresWord s i v → ∃ a b, readOperand s 1 m1 = .ok a ∧ readOperand s 2 m2 = .ok b ∧
      ∀ w, g a b = .ok w → w = v)
    (h : evalBinary m1 m2 m3 g s = .ok e) : EffectSource i s e := by
  obtain ⟨a, b, t, w, ha, hb, ht, hw, rfl⟩ := evalBinary_eq_ok.1 h
  refine ⟨by simp, by simp, ?_, ?_⟩
  · rintro _ _ ⟨⟩
    exact ⟨3, m3, hi, ht⟩
  · intro k m t' v hk ht' hv
    obtain ⟨a', b', ha', hb', hw'⟩ := hg v hv
    cases hi.symm.trans hk
    cases ht.symm.trans ht'
    cases ha.symm.trans ha'
    cases hb.symm.trans hb'
    rw [hw' w hw]

theorem effectSource_of_evalJump {i : Instr} {m1 m2 : Mode} {taken : Int → Bool} {s : State} {e : Effect}
    (hi : storeParam i = none) (h : evalJump m1 m2 taken s = .ok e) : EffectSource i s e := by
  obtain ⟨_, _, -, -, ⟨-, -, rfl⟩ | ⟨-, rfl⟩⟩ := evalJump_eq_ok.1 h
  · exact effectSource_of_none hi rfl rfl rfl
  · exact effectSource_of_none hi rfl rfl rfl

theorem effectSource_of_evalIn {m1 m2 m3 : Mode} {s : State} {e : Effect} (h : evalIn m1 s = .ok e) :
    EffectSource (.inp m1 m2 m3) s e := by
  obtain ⟨t, ht, ⟨hq, rfl⟩ | ⟨x, rest, hq, rfl⟩⟩ := evalIn_eq_ok.1 h
  · exact ⟨by simp, by simp, by simp, by simp [StoresWord, hq]⟩
  · refine ⟨fun _ => ⟨rfl, x, rest, t, hq, ht, rfl⟩, by simp, ?_, ?_⟩
    · rintro _ _ ⟨⟩
      exact ⟨1, m1, rfl, ht⟩
    · rintro k m t' v ⟨⟩ ht' hv
      cases ht.symm.trans ht'
      simp only [StoresWord, hq, List.head?_cons] at hv
      cases hv
      rfl

theorem truthWord_isLess (a b : Int) : truthWord (isLess a b) = if a < b then 1 else 0 := by
  simp [truthWord, isLess]

theorem truthWord_isEqual (a b : Int) : truthWord (isEqual a b) = if a = b then 1 else 0 := by
  simp [truthWord, isEqual]

theorem evalOf_effectSource {i : Instr} {s : State} {e : Effect} (h : evalOf i s = .ok e) : EffectSource i s e := by
  cases i with
  | add m1 m2 m3 =>
    refine effectSource_of_evalBinary rfl ?_ h
    rintro v ⟨a, b, ha, hb, rfl⟩
    exact ⟨a, b, ha, hb, fun w hw => (chk_eq_ok.1 hw).2⟩
  | mul m1 m2 m3 =>
    refine effectSource_of_evalBinary rfl ?_ h
    rintro v ⟨a, b, ha, hb, rfl⟩
    exact ⟨a, b, ha, hb, fun w hw => (chk_eq_ok.1 hw).2⟩
  | inp m1 m2 m3 => exact effectSource_of_evalIn h
  | out m1 m2 m3 =>
    obtain ⟨a, ha, rfl⟩ := evalOut_eq_ok.1 h
    exact ⟨by simp, by rintro _ ⟨⟩; exact ⟨rfl, ha⟩, by simp, by simp [storeParam]⟩
  | jnz m1 m2 m3 => exact effectSource_of_evalJump rfl h
  | jz m1 m2 m3 => exact effectSource_of_evalJump rfl h
  | lt m1 m2 m3 =>
    refine effectSource_of_evalBinary rfl ?_ h
    rintro v ⟨a, b, ha, hb, rfl⟩
    exact ⟨a, b, ha, hb, fun w hw => (Except.ok.inj hw).symm.trans (truthWord_isLess a b)⟩
  | eq m1 m2 m3 =>
    refine effectSource_of_evalBinary rfl ?_ h
    rintro v ⟨a, b, ha, hb, rfl⟩
    exact ⟨a, b, ha, hb, fun w hw => (Except.ok.inj hw).symm.trans (truthWord_isEqual a b)⟩
  | arb m1 m2 m3 =>
    obtain ⟨_, -, -, rfl⟩ := evalArb_eq_ok.1 h
    exact effectSource_of_none rfl rfl rfl rfl
  | hlt m1 m2 m3 =>
    cases h
    exact effectSource_of_none rfl rfl rfl rfl

/-! ### What an instruction does to one element of the state -/

/-- The queue stays, or IN writes its head at the target (R32). -/
theorem exec_inq_cases {i : Instr} {s t : State} (h : exec i s = .next t) :
    t.inq = s.inq ∨ (i.opcode = 3 ∧ ∃ x, s.inq = x :: t.inq ∧
      ∃ target, writeAddress s 1 i.modes.1 = .ok target ∧ t.mem = s.mem.write target.toNat x) := by
  rcases exec_cases h with ⟨_, -, rfl⟩ | ⟨e, npc, he, -, rfl⟩
  · exact .inl rfl
  cases hp : e.pop with
  | false => exact .inl (by simp [hp])
  | true =>
    obtain ⟨hi, x, rest, target, hq, ht, hw⟩ := (evalOf_effectSource he).pop hp
    exact .inr ⟨hi, x, by simp [hp, hq], target, ht, by rw [commit_mem, hw]⟩

/-- The output registers stay, or OUT emits its operand (R33, 42_io.md R173). -/
theorem exec_output_cases {i : Instr} {s t : State} (h : exec i s = .next t) :
    (t.outlog = s.outlog ∧ t.lastOut = s.lastOut) ∨
    (i.opcode = 4 ∧ ∃ v, readOperand s 1 i.modes.1 = .ok v ∧ t.outlog = s.outlog ++ [v] ∧ t.lastOut = some v) := by
  rcases exec_cases h with ⟨_, -, rfl⟩ | ⟨e, npc, he, -, rfl⟩
  · exact .inl ⟨rfl, rfl⟩
  cases hv : e.emit with
  | none => exact .inl (by simp [hv])
  | some v =>
    obtain ⟨hi, ha⟩ := (evalOf_effectSource he).emit v hv
    exact .inr ⟨hi, v, ha, by simp [hv], by simp [hv]⟩

/-- Memory stays, or a word is written at the resolved target (20_memory.md R56). -/
theorem exec_mem_cases {i : Instr} {s t : State} (h : exec i s = .next t) :
    t.mem = s.mem ∨ ∃ k m x v, storeParam i = some (k, m) ∧ writeAddress s k m = .ok x ∧ t.mem = s.mem.write x.toNat v := by
  rcases exec_cases h with ⟨_, -, rfl⟩ | ⟨e, npc, he, -, rfl⟩
  · exact .inl rfl
  rw [commit_mem]
  cases hw : e.write with
  | none => exact .inl rfl
  | some xv =>
    obtain ⟨k, m, hk, hx⟩ := (evalOf_effectSource he).target xv.1 xv.2 hw
    exact .inr ⟨k, m, xv.1, xv.2, hk, hx, rfl⟩

theorem exec_bps {i : Instr} {s t : State} (h : exec i s = .next t) : t.bps = s.bps := by
  rcases exec_cases h with ⟨_, -, rfl⟩ | ⟨_, _, -, -, rfl⟩ <;> rfl

theorem exec_fault_cases {i : Instr} {s t : State} (h : exec i s = .next t) :
    t.fault = s.fault ∨ t.status = .faulted := by
  rcases exec_cases h with ⟨_, -, rfl⟩ | ⟨_, _, -, -, rfl⟩
  · exact .inr rfl
  · exact .inl rfl

/-- Settles O29: a fault that is taken leaves the counter, and a commit adds 1 and does not end FAULTED. -/
theorem committedCyclesCountOnce : Obligations.CommittedCyclesCountOnce := by
  intro i s t hs h
  rcases exec_cases h with ⟨_, -, rfl⟩ | ⟨_, npc, he, -, rfl⟩
  · exact .inl ⟨rfl, rfl⟩
  · exact .inr ⟨commit_status_ne_faulted npc he hs, rfl⟩

/-- Settles O35: the only write is at the resolved target, and it leaves every other address alone. -/
theorem storesOnlyAtTheTarget : Obligations.StoresOnlyAtTheTarget := by
  intro i s t h
  rcases exec_mem_cases h with hm | ⟨k, m, x, v, hk, hx, hm⟩
  · rw [hm]
    exact ⟨fun _ _ => rfl, fun _ _ _ => ⟨fun _ _ _ => rfl, fun _ _ _ _ _ => rfl⟩⟩
  · refine ⟨by simp [hk], fun k' m' hk' => ?_⟩
    cases hk.symm.trans hk'
    refine ⟨by simp [hx], fun x' hx' hwf a ha => ?_⟩
    cases hx.symm.trans hx'
    have hx0 := (writeAddress_legal hx).1
    rw [hm, read_write_other hwf v (by omega)]

/-- Settles O36: each element is left by the fault that is taken and by every effect but the one that names it. -/
theorem instructionsLeaveTheRestAlone : Obligations.InstructionsLeaveTheRestAlone := by
  refine fun i s t h => ⟨exec_cfg h, exec_bps h, exec_snap h, fun hi => ?_, fun hi => ?_, fun hi => ?_, fun hi hi' => ?_,
    exec_fault_cases h⟩
  · rcases exec_rb_cases h with hr | ⟨⟨_, _, _, rfl⟩, -⟩
    · exact hr
    · exact absurd rfl hi
  · exact (exec_inq_cases h).resolve_right fun hin => hi hin.1
  · exact ((exec_output_cases h).resolve_right fun ho => hi ho.1).symm
  · rcases exec_status_cases h with ⟨_, -, rfl⟩ | hs | ⟨-, hs⟩ | ⟨-, hs, -⟩
    · exact .inr rfl
    · exact .inl hs
    · exact absurd hs hi'
    · exact absurd hs hi

/-- Settles O38: a commit writes the stored word at the target, which is legal and so can be fetched. -/
theorem fetchSeesThePreviousStore : Obligations.FetchSeesThePreviousStore := by
  intro i s t k m x v hwf hk hx hv h hs
  rcases exec_cases h with ⟨_, -, rfl⟩ | ⟨e, npc, he, -, rfl⟩
  · exact absurd rfl hs
  have hmem : (commit s e npc).mem = s.mem.write x.toNat v := by
    rw [commit_mem, (evalOf_effectSource he).stored k m x v hk hx hv]
  have hread : (commit s e npc).mem.read x.toNat = v := by rw [hmem, read_write_same hwf]
  refine ⟨hread, fun hpc => ?_⟩
  have hl : Legal (commit s e npc).cfg x := (commit_cfg s e npc).symm ▸ writeAddress_legal hx
  rw [fetch, hpc, memRead_of_legal hl, hread]

/-! ### What an evaluation does not read -/

theorem nextPc_congr {s u : State} (hpc : u.pc = s.pc) (n : Next) : nextPc u n = nextPc s n := by
  cases n with
  | delta d => simp only [nextPc, chk, hpc]
  | jump t => rfl

/-- Two states in which an instruction evaluates alike at the same `pc` end in the same way. -/
theorem exec_congr {i : Instr} {s t u : State} (he : evalOf i u = evalOf i s) (hpc : u.pc = s.pc) (h : exec i s = .next t) :
    (∃ f, t = takeFault s f ∧ exec i u = .next (takeFault u f)) ∨
    (∃ e npc, evalOf i s = .ok e ∧ t = commit s e npc ∧ exec i u = .next (commit u e npc)) := by
  rw [exec_eq_finish] at h
  rw [exec_eq_finish, he]
  rcases finish_cases h with ⟨f, hf | ⟨e, heq, hf⟩, rfl⟩ | ⟨e, npc, heq, hn, rfl⟩
  · exact .inl ⟨f, rfl, by rw [hf, finish_error]⟩
  · exact .inl ⟨f, rfl, by simp only [finish, heq, nextPc_congr hpc, hf]⟩
  · exact .inr ⟨e, npc, heq, rfl, by rw [heq, finish_ok ((nextPc_congr hpc _).trans hn)]⟩

theorem evalOf_withInq {i : Instr} (hi : i.opcode ≠ 3) (s : State) (q : List Int) :
    evalOf i { s with inq := q } = evalOf i s := by
  cases i with
  | inp m1 m2 m3 => exact absurd rfl hi
  | _ => rfl

/-- No evaluation reads the elements a program cannot observe (R37). -/
theorem evalOf_withDiagnostics (i : Instr) (s : State) (c : Nat) (l : Option Int) (o b : List Int) (n : Memory)
    (g : Option FaultRecord) :
    evalOf i { s with cycles := c, lastOut := l, outlog := o, bps := b, snap := n, fault := g } = evalOf i s := by
  cases i <;> rfl

/-- Committing an effect that takes no input carries the queue along. -/
theorem commit_withInq {s : State} {e : Effect} (hp : e.pop = false) (npc : Int) (q : List Int) :
    commit { s with inq := q } e npc = { commit s e npc with inq := q } := by
  simp only [commit, hp, Bool.false_eq_true, if_false, emitOutput]

/-- Settles O33: IN alone pops, and the evaluation of any other instruction does not read the queue. -/
theorem inputConsumedFifoByInOnly : Obligations.InputConsumedFifoByInOnly := by
  refine ⟨fun _ _ _ => exec_inq_cases, fun i s t q hi h => ?_⟩
  rcases exec_congr (u := { s with inq := q }) (evalOf_withInq hi s q) rfl h with ⟨f, rfl, hu⟩ | ⟨e, npc, he, rfl, hu⟩
  · exact hu
  · have hp : e.pop = false := Bool.not_eq_true _ ▸ fun hp => hi ((evalOf_effectSource he).pop hp).1
    rw [hu, commit_withInq hp]

/-- Settles O37: the evaluation reads none of the changed elements, and the end of the cycle carries them along. -/
theorem diagnosticStateNeverRead : Obligations.DiagnosticStateNeverRead := by
  intro i s t c l o b n g h
  rcases exec_congr (evalOf_withDiagnostics i s c l o b n g) rfl h with ⟨f, rfl, hu⟩ | ⟨e, npc, -, rfl, hu⟩
  · exact ⟨_, hu, rfl, rfl, rfl, rfl, rfl, rfl, rfl, rfl⟩
  · exact ⟨_, hu, rfl, rfl, rfl, rfl, rfl, rfl, rfl, rfl⟩

/-! ### The output log and the configuration through cycles and host operations -/

theorem exec_outlog_prefix {i : Instr} {s t : State} (h : exec i s = .next t) : s.outlog <+: t.outlog := by
  rcases exec_output_cases h with ⟨ho, -⟩ | ⟨-, v, -, ho, -⟩
  · rw [ho]
  · exact ⟨[v], ho.symm⟩

theorem cycle_outlog_prefix {s t : State} (hc : CanCycle s) (h : cycle s = .next t) : s.outlog <+: t.outlog := by
  rcases cycle_cases h with ⟨-, rfl⟩ | ⟨-, h⟩
  · exact List.prefix_rfl
  rw [clearLatch_of_canCycle hc] at h
  rcases fetchExecute_cases h with ⟨_, -, rfl⟩ | ⟨_, _, -, -, h⟩
  · exact List.prefix_rfl
  · exact exec_outlog_prefix (s := { s with status := .running }) h

/-- Settles O34: OUT alone emits, and every move of the host but a cycle leaves the log. -/
theorem outputLogOnlyGrows : Obligations.OutputLogOnlyGrows := by
  refine ⟨fun _ _ _ => exec_output_cases, fun op s t h => ?_⟩
  exact applyHostOp_induction (P := fun u => s.outlog <+: u.outlog)
    (hcycle := fun _ _ hc hu hx => hu.trans (cycle_outlog_prefix hc hx))
    (hresume := fun _ _ _ hu => hu) (hpush := fun _ _ _ hu => hu) (hprovide := fun _ _ _ hu => hu)
    (hset := fun _ _ hu => hu) (hclear := fun _ _ hu => hu) (hsave := fun _ hu => hu) List.prefix_rfl h

theorem applyHostOp_cfg {op : HostOp} {s t : State} (h : applyHostOp op s = .next t) : t.cfg = s.cfg :=
  applyHostOp_induction (P := fun u => u.cfg = s.cfg)
    (hcycle := fun _ _ _ hu hx => (cycle_cfg hx).trans hu)
    (hresume := fun _ _ _ hu => hu) (hpush := fun _ _ _ hu => hu) (hprovide := fun _ _ _ hu => hu)
    (hset := fun _ _ hu => hu) (hclear := fun _ _ hu => hu) (hsave := fun _ hu => hu) rfl h

/-- Settles O53: no host operation writes the configuration, so no session does. -/
theorem configurationNeverChanges : Obligations.ConfigurationNeverChanges :=
  fun _ s _ h => applyHostOps_induction (P := fun u => u.cfg = s.cfg) (fun _ _ _ hu hop => (applyHostOp_cfg hop).trans hu)
    rfl h

/-! ### What a record tells (60_exceptions.md R221 to R224) -/

theorem Raised.eq_addressFault {s : State} {f : FaultRecord} (h : Raised s f) (hk : f.kind = .addressFault) :
    ∃ a, f = addressFault s.pc a ∧ ¬ Legal s.cfg a := by
  obtain ⟨kind, pc, addr, reason⟩ := f
  obtain ⟨rfl, hs, ho⟩ := h
  cases hk
  simp only [FaultRecord.wellShaped, Bool.and_eq_true, Option.isSome_iff_exists, Option.isNone_iff_eq_none] at hs
  obtain ⟨⟨a, rfl⟩, rfl⟩ := hs
  exact ⟨a, rfl, ho a rfl⟩

theorem Raised.eq_rangeFault {s : State} {f : FaultRecord} (h : Raised s f) (hk : f.kind = .rangeFault) :
    f = rangeFault s.pc := by
  obtain ⟨kind, pc, addr, reason⟩ := f
  obtain ⟨rfl, hs, -⟩ := h
  cases hk
  simp only [FaultRecord.wellShaped, Bool.and_eq_true, Option.isNone_iff_eq_none] at hs
  obtain ⟨rfl, rfl⟩ := hs
  rfl

section
variable {s : State} {f : FaultRecord}

theorem chk_kind {v : Int} (h : chk s v = .error f) : f.kind ≠ .unknownOpcodeFault := by
  obtain ⟨-, rfl⟩ := chk_eq_error.1 h; simp [rangeFault]

theorem memRead_kind {a : Int} (h : memRead s a = .error f) : f.kind ≠ .unknownOpcodeFault := by
  obtain ⟨-, rfl⟩ := memRead_eq_error.1 h; simp [addressFault]

theorem checkAddr_kind {a : Int} (h : checkAddr s a = .error f) : f.kind ≠ .unknownOpcodeFault := by
  obtain ⟨-, rfl⟩ := checkAddr_eq_error.1 h; simp [addressFault]

theorem nextPc_kind {n : Next} (h : nextPc s n = .error f) : f.kind ≠ .unknownOpcodeFault := by
  cases n with
  | delta d => exact chk_kind h
  | jump t => cases h

theorem rawParam_kind {k : Nat} (h : rawParam s k = .error f) : f.kind ≠ .unknownOpcodeFault := by
  rcases bind_eq_error.1 h with h | ⟨_, _, h⟩
  · exact chk_kind h
  · exact memRead_kind h

variable (hk : f.kind = .unknownOpcodeFault)
include hk

/-- A read operand raises UnknownOpcodeFault for an illegal mode only (30_encoding.md R91). -/
theorem readOperand_modeFault {k : Nat} {m : Mode} (h : readOperand s k m = .error f) :
    f = unknownOpcodeFault s.pc .mode ∧ modeLegal .read m = false := by
  cases m with
  | undefined d => cases h; exact ⟨rfl, rfl⟩
  | immediate => exact absurd hk (rawParam_kind h)
  | position =>
    rcases bind_eq_error.1 h with h | ⟨_, _, h⟩
    · exact absurd hk (rawParam_kind h)
    · exact absurd hk (memRead_kind h)
  | relative =>
    rcases bind_eq_error.1 h with h | ⟨_, _, h⟩
    · exact absurd hk (rawParam_kind h)
    rcases bind_eq_error.1 h with h | ⟨_, _, h⟩
    · exact absurd hk (chk_kind h)
    · exact absurd hk (memRead_kind h)

/-- A write target raises UnknownOpcodeFault for an illegal mode only, immediate mode included (30_encoding.md R92). -/
theorem writeAddress_modeFault {k : Nat} {m : Mode} (h : writeAddress s k m = .error f) :
    f = unknownOpcodeFault s.pc .mode ∧ modeLegal .write m = false := by
  cases m with
  | undefined d => cases h; exact ⟨rfl, rfl⟩
  | immediate => cases h; exact ⟨rfl, rfl⟩
  | position =>
    rcases bind_eq_error.1 h with h | ⟨_, _, h⟩
    · exact absurd hk (rawParam_kind h)
    · exact absurd hk (checkAddr_kind h)
  | relative =>
    rcases bind_eq_error.1 h with h | ⟨_, _, h⟩
    · exact absurd hk (rawParam_kind h)
    rcases bind_eq_error.1 h with h | ⟨_, _, h⟩
    · exact absurd hk (chk_kind h)
    · exact absurd hk (checkAddr_kind h)

/-! A list of roles and modes below is `usedModesLegal` of the instructions that have this evaluation. -/

theorem evalBinary_modeFault {m1 m2 m3 : Mode} {g : Int → Int → Except FaultRecord Int}
    (hg : ∀ a b, g a b = .error f → f.kind ≠ .unknownOpcodeFault) (h : evalBinary m1 m2 m3 g s = .error f) :
    f = unknownOpcodeFault s.pc .mode ∧
      [(Role.read, m1), (.read, m2), (.write, m3)].all (fun p => modeLegal p.1 p.2) = false := by
  rcases bind_eq_error.1 h with h | ⟨_, _, h⟩
  · exact (readOperand_modeFault hk h).imp_right fun hm => by simp [hm]
  rcases bind_eq_error.1 h with h | ⟨_, _, h⟩
  · exact (readOperand_modeFault hk h).imp_right fun hm => by simp [hm]
  rcases bind_eq_error.1 h with h | ⟨_, _, h⟩
  · exact (writeAddress_modeFault hk h).imp_right fun hm => by simp [hm]
  rcases bind_eq_error.1 h with h | ⟨_, _, h⟩
  · exact absurd hk (hg _ _ h)
  · cases h

theorem evalJump_modeFault {m1 m2 : Mode} {taken : Int → Bool} (h : evalJump m1 m2 taken s = .error f) :
    f = unknownOpcodeFault s.pc .mode ∧ [(Role.read, m1), (.read, m2)].all (fun p => modeLegal p.1 p.2) = false := by
  rcases bind_eq_error.1 h with h | ⟨_, _, h⟩
  · exact (readOperand_modeFault hk h).imp_right fun hm => by simp [hm]
  rcases bind_eq_error.1 h with h | ⟨b, _, h⟩
  · exact (readOperand_modeFault hk h).imp_right fun hm => by simp [hm]
  split_ifs at h <;> cases h
  cases hk

theorem evalIn_modeFault {m1 : Mode} (h : evalIn m1 s = .error f) :
    f = unknownOpcodeFault s.pc .mode ∧ [(Role.write, m1)].all (fun p => modeLegal p.1 p.2) = false := by
  rcases bind_eq_error.1 h with h | ⟨_, _, h⟩
  · exact (writeAddress_modeFault hk h).imp_right fun hm => by simp [hm]
  · split at h <;> cases h

theorem evalOut_modeFault {m1 : Mode} (h : evalOut m1 s = .error f) :
    f = unknownOpcodeFault s.pc .mode ∧ [(Role.read, m1)].all (fun p => modeLegal p.1 p.2) = false := by
  rcases bind_eq_error.1 h with h | ⟨_, _, h⟩
  · exact (readOperand_modeFault hk h).imp_right fun hm => by simp [hm]
  · cases h

theorem evalArb_modeFault {m1 : Mode} (h : evalArb m1 s = .error f) :
    f = unknownOpcodeFault s.pc .mode ∧ [(Role.read, m1)].all (fun p => modeLegal p.1 p.2) = false := by
  rcases bind_eq_error.1 h with h | ⟨_, _, h⟩
  · exact (readOperand_modeFault hk h).imp_right fun hm => by simp [hm]
  rcases bind_eq_error.1 h with h | ⟨_, _, h⟩
  · exact absurd hk (chk_kind h)
  · cases h

/-- An evaluation raises UnknownOpcodeFault only where a mode the opcode uses is illegal. -/
theorem evalOf_modeFault {i : Instr} (h : evalOf i s = .error f) :
    f = unknownOpcodeFault s.pc .mode ∧ usedModesLegal i = false := by
  cases i with
  | add m1 m2 m3 => exact evalBinary_modeFault hk (fun _ _ => chk_kind) h
  | mul m1 m2 m3 => exact evalBinary_modeFault hk (fun _ _ => chk_kind) h
  | inp m1 m2 m3 => exact evalIn_modeFault hk h
  | out m1 m2 m3 => exact evalOut_modeFault hk h
  | jnz m1 m2 m3 => exact evalJump_modeFault hk h
  | jz m1 m2 m3 => exact evalJump_modeFault hk h
  | lt m1 m2 m3 => exact evalBinary_modeFault hk (by simp) h
  | eq m1 m2 m3 => exact evalBinary_modeFault hk (by simp) h
  | arb m1 m2 m3 => exact evalArb_modeFault hk h
  | hlt m1 m2 m3 => cases h

end

/-- Settles O28: the shape of a raised record fixes it up to its address, and only a mode check raises an UnknownOpcodeFault. -/
theorem faultRecordsTellTheCause : Obligations.FaultRecordsTellTheCause := by
  intro i s t f hs h ht htf
  rw [exec_eq_finish] at h
  rcases finish_cases h with ⟨f', hf, rfl⟩ | ⟨e, npc, he, -, rfl⟩
  · cases htf
    have hr : Raised s f := by
      rcases hf with hf | ⟨_, -, hf⟩
      · exact evalOf_raised hf
      · exact nextPc_raised hf
    refine ⟨hr.eq_addressFault, fun hk => ?_, hr.eq_rangeFault⟩
    rcases hf with hf | ⟨_, -, hf⟩
    · exact evalOf_modeFault hk hf
    · exact absurd hk (nextPc_kind hf)
  · exact absurd ht (commit_status_ne_faulted npc he hs)

end Sys2Proof.Machine
end

section
/-! SUPPORT. The instructions one by one (30_encoding.md R87 to R93, 41_arithmetic.md to 45_relbase.md): the checks of a parameter
in order, the ways an evaluation of each shape ends, and the statement for each opcode. -/

namespace Sys2Proof.Machine

/-! ### The checks of one parameter (R89 to R92) -/

section
variable {s : State} {k : Nat}

theorem chk_of_not_inRange {v : Int} (h : ¬ InRange v) : chk s v = .error (rangeFault s.pc) := chk_eq_error.2 ⟨h, rfl⟩

theorem rawParam_of_not_inRange (hr : ¬ InRange (s.pc + k)) : rawParam s k = .error (rangeFault s.pc) := by
  rw [rawParam, chk_of_not_inRange hr, error_bind]

theorem rawParam_of_not_legal (hr : InRange (s.pc + k)) (hl : ¬ Legal s.cfg (s.pc + k)) :
    rawParam s k = .error (addressFault s.pc (s.pc + k)) := by
  rw [rawParam, chk_of_inRange hr, ok_bind, memRead_of_not_legal hl]

/-- A parameter word that cannot be read raises its fault in every mode that reads. -/
theorem readOperand_of_rawParam_error {f : FaultRecord} (h : rawParam s k = .error f) {m : Mode}
    (hm : modeLegal .read m = true) : readOperand s k m = .error f := by
  cases m with
  | undefined d => cases hm
  | immediate => exact h
  | position => rw [readOperand, h, error_bind]
  | relative => rw [readOperand, h, error_bind]

theorem writeAddress_of_rawParam_error {f : FaultRecord} (h : rawParam s k = .error f) {m : Mode}
    (hm : modeLegal .write m = true) : writeAddress s k m = .error f := by
  cases m with
  | undefined d => cases hm
  | immediate => cases hm
  | position => rw [writeAddress, h, error_bind]
  | relative => rw [writeAddress, h, error_bind]

/-- A relative address out of range raises RangeFault, for a read and for a target. -/
theorem relative_of_not_inRange {raw : Int} (h : rawParam s k = .ok raw) (hr : ¬ InRange (raw + s.rb)) :
    readOperand s k .relative = .error (rangeFault s.pc) ∧ writeAddress s k .relative = .error (rangeFault s.pc) := by
  simp only [readOperand, writeAddress, h, ok_bind, relativeAddr, chk_of_not_inRange hr, error_bind, and_self]

end

/-- Settles O9: the first check that fails answers, whatever would come after it. -/
theorem parameterChecksInOrder : Obligations.ParameterChecksInOrder := by
  have hread : ∀ m ∈ [Mode.position, .immediate, .relative], modeLegal .read m = true := by decide
  have hwrite : ∀ m ∈ [Mode.position, .relative], modeLegal .write m = true := by decide
  refine fun s k => ⟨fun d => ⟨rfl, rfl⟩, rfl, fun hr => ?_, fun hr hl => ?_, ?_⟩
  · have h := rawParam_of_not_inRange hr
    exact ⟨fun m hm => readOperand_of_rawParam_error h (hread m hm),
      fun m hm => writeAddress_of_rawParam_error h (hwrite m hm)⟩
  · have h := rawParam_of_not_legal hr hl
    exact ⟨fun m hm => readOperand_of_rawParam_error h (hread m hm),
      fun m hm => writeAddress_of_rawParam_error h (hwrite m hm)⟩
  · rintro hr hl raw rfl
    have h := rawParam_of_legal hr hl
    refine ⟨fun ha => ⟨?_, ?_⟩, relative_of_not_inRange h, fun hra ha => ⟨?_, ?_⟩⟩
    · rw [readOperand_position h, memRead_of_not_legal ha]
    · rw [writeAddress_position h, checkAddr_of_not_legal ha]
    · rw [readOperand_relative h hra, memRead_of_not_legal ha]
    · rw [writeAddress_relative h hra, checkAddr_of_not_legal ha]

/-! ### From an evaluation to the end of the cycle -/

section
variable {i : Instr} {s : State} {e : Effect}

theorem exec_of_error {f : FaultRecord} (h : evalOf i s = .error f) : exec i s = .next (takeFault s f) := by
  rw [exec_eq_finish, h, finish_error]

theorem exec_of_ok (h : evalOf i s = .ok e) {npc : Int} (hn : nextPc s e.next = .ok npc) :
    exec i s = .next (commit s e npc) := by
  rw [exec_eq_finish, h, finish_ok hn]

/-- A next pc out of range takes a RangeFault in place of the commit (40_engine_cycle.md R127). -/
theorem exec_of_ok_of_not_inRange (h : evalOf i s = .ok e) {d : Nat} (hd : e.next = .delta d) (hr : ¬ InRange (s.pc + d)) :
    exec i s = .next (takeFault s (rangeFault s.pc)) := by
  rw [exec_eq_finish, h, finish, hd, nextPc, chk_of_not_inRange hr]

theorem nextPc_delta {d : Nat} (h : InRange (s.pc + d)) : nextPc s (.delta d) = .ok (s.pc + d) := chk_of_inRange h

theorem nextPc_delta_zero (h : InRange s.pc) : nextPc s (.delta 0) = .ok s.pc := by
  have hpc : s.pc + ((0 : Nat) : Int) = s.pc := Int.add_zero s.pc
  rw [nextPc, hpc, chk_of_inRange h]

end

/-- The instruction word is the opcode and the three digits at their weights (30_encoding.md R85). -/
theorem encode_eq (i : Instr) : encode i =
    i.opcode + 100 * i.modes.1.digit + 1000 * i.modes.2.1.digit + 10000 * i.modes.2.2.digit := by
  simp [encode, encodeFields]

/-! ### ADD, MUL, LT and EQ: two operands, a target, a result -/

/-- The operand faults of an instruction of format F4, whatever its result function is. -/
theorem binaryOperandFaults {i : Instr} {m1 m2 m3 : Mode} (g : State → Int → Int → Except FaultRecord Int)
    (hi : ∀ s, evalOf i s = evalBinary m1 m2 m3 (g s) s) : BinaryOperandFaults i m1 m2 m3 := by
  refine fun s => ⟨fun f hf => exec_of_error ?_, fun a f ha hf => exec_of_error ?_, fun a b f ha hb hf => exec_of_error ?_⟩
  · rw [hi, evalBinary, hf, error_bind]
  · rw [hi, evalBinary, ha, ok_bind, hf, error_bind]
  · rw [hi, evalBinary, ha, ok_bind, hb, ok_bind, hf, error_bind]

section
variable {i : Instr} {m1 m2 m3 : Mode} {g : Int → Int → Except FaultRecord Int} {s : State} {a b t : Int}
  (hi : evalOf i s = evalBinary m1 m2 m3 g s) (ha : readOperand s 1 m1 = .ok a) (hb : readOperand s 2 m2 = .ok b)
  (ht : writeAddress s 3 m3 = .ok t)
include hi ha hb ht

theorem exec_binary_of_result_error {f : FaultRecord} (hg : g a b = .error f) : exec i s = .next (takeFault s f) := by
  refine exec_of_error ?_
  rw [hi, evalBinary, ha, ok_bind, hb, ok_bind, ht, ok_bind, hg, error_bind]

theorem exec_binary_of_pc_range {v : Int} (hg : g a b = .ok v) (hr : ¬ InRange (s.pc + 4)) :
    exec i s = .next (takeFault s (rangeFault s.pc)) :=
  exec_of_ok_of_not_inRange (hi.trans (evalBinary_eq_ok.2 ⟨a, b, t, v, ha, hb, ht, hg, rfl⟩)) rfl hr

theorem exec_binary_commit {v : Int} (hg : g a b = .ok v) (hr : InRange (s.pc + 4)) :
    exec i s = .next { s with mem := s.mem.write t.toNat v, pc := s.pc + 4, cycles := s.cycles + 1 } :=
  exec_of_ok (hi.trans (evalBinary_eq_ok.2 ⟨a, b, t, v, ha, hb, ht, hg, rfl⟩)) (nextPc_delta hr)

end

/-- Settles O13: the result of ADD is `Chk(a + b)`. -/
theorem addExecutes : Obligations.AddExecutes := by
  refine fun m1 m2 m3 => ⟨encode_eq _, rfl, binaryOperandFaults (fun s a b => chk s (a + b)) fun _ => rfl,
    fun s a b t ha hb ht => ⟨fun hv => ?_, fun hv hr => ?_, fun hv hr => ?_⟩⟩
  · exact exec_binary_of_result_error rfl ha hb ht (chk_of_not_inRange hv)
  · exact exec_binary_of_pc_range rfl ha hb ht (chk_of_inRange hv) hr
  · exact exec_binary_commit rfl ha hb ht (chk_of_inRange hv) hr

/-- Settles O14: the result of MUL is `Chk(a * b)`. -/
theorem mulExecutes : Obligations.MulExecutes := by
  refine fun m1 m2 m3 => ⟨encode_eq _, rfl, binaryOperandFaults (fun s a b => chk s (a * b)) fun _ => rfl,
    fun s a b t ha hb ht => ⟨fun hv => ?_, fun hv hr => ?_, fun hv hr => ?_⟩⟩
  · exact exec_binary_of_result_error rfl ha hb ht (chk_of_not_inRange hv)
  · exact exec_binary_of_pc_range rfl ha hb ht (chk_of_inRange hv) hr
  · exact exec_binary_commit rfl ha hb ht (chk_of_inRange hv) hr

/-- Settles O19: the result of LT is 1 or 0 and is not checked. -/
theorem ltExecutes : Obligations.LtExecutes := by
  refine fun m1 m2 m3 => ⟨encode_eq _, rfl, binaryOperandFaults (fun _ a b => .ok (truthWord (isLess a b))) fun _ => rfl,
    fun s a b t ha hb ht => ⟨fun hr => ?_, fun hr hab => ?_, fun hr hab => ?_⟩⟩
  · exact exec_binary_of_pc_range rfl ha hb ht rfl hr
  · exact exec_binary_commit rfl ha hb ht (by rw [truthWord_isLess, if_pos hab]) hr
  · exact exec_binary_commit rfl ha hb ht (by rw [truthWord_isLess, if_neg hab]) hr

/-- Settles O20: the result of EQ is 1 or 0 and is not checked. -/
theorem eqExecutes : Obligations.EqExecutes := by
  refine fun m1 m2 m3 => ⟨encode_eq _, rfl, binaryOperandFaults (fun _ a b => .ok (truthWord (isEqual a b))) fun _ => rfl,
    fun s a b t ha hb ht => ⟨fun hr => ?_, fun hr hab => ?_, fun hr hab => ?_⟩⟩
  · exact exec_binary_of_pc_range rfl ha hb ht rfl hr
  · exact exec_binary_commit rfl ha hb ht (by rw [truthWord_isEqual, if_pos hab]) hr
  · exact exec_binary_commit rfl ha hb ht (by rw [truthWord_isEqual, if_neg hab]) hr

/-! ### JNZ and JZ: two operands, then a jump or the next instruction -/

section
variable {i : Instr} {m1 m2 : Mode} {taken : Int → Bool} {s : State} {a b : Int}
  (hi : evalOf i s = evalJump m1 m2 taken s)
include hi

theorem exec_jump_of_condition_error {f : FaultRecord} (hf : readOperand s 1 m1 = .error f) :
    exec i s = .next (takeFault s f) := by
  refine exec_of_error ?_
  rw [hi, evalJump, hf, error_bind]

variable (ha : readOperand s 1 m1 = .ok a)
include ha

theorem exec_jump_of_target_error {f : FaultRecord} (hf : readOperand s 2 m2 = .error f) :
    exec i s = .next (takeFault s f) := by
  refine exec_of_error ?_
  rw [hi, evalJump, ha, ok_bind, hf, error_bind]

variable (hb : readOperand s 2 m2 = .ok b)
include hb

theorem exec_jump_of_negative_target (ht : taken a = true) (h0 : b < 0) :
    exec i s = .next (takeFault s (addressFault s.pc b)) := by
  refine exec_of_error ?_
  rw [hi, evalJump, ha, ok_bind, hb, ok_bind, if_pos ht, if_pos h0]

theorem exec_jump_taken (ht : taken a = true) (h0 : 0 ≤ b) :
    exec i s = .next { s with pc := b, cycles := s.cycles + 1 } :=
  exec_of_ok (hi.trans (evalJump_eq_ok.2 ⟨a, b, ha, hb, .inl ⟨ht, h0, rfl⟩⟩)) (nextPc_jump s b)

theorem exec_jump_of_pc_range (ht : taken a = false) (hr : ¬ InRange (s.pc + 3)) :
    exec i s = .next (takeFault s (rangeFault s.pc)) :=
  exec_of_ok_of_not_inRange (hi.trans (evalJump_eq_ok.2 ⟨a, b, ha, hb, .inr ⟨ht, rfl⟩⟩)) rfl hr

theorem exec_jump_not_taken (ht : taken a = false) (hr : InRange (s.pc + 3)) :
    exec i s = .next { s with pc := s.pc + 3, cycles := s.cycles + 1 } :=
  exec_of_ok (hi.trans (evalJump_eq_ok.2 ⟨a, b, ha, hb, .inr ⟨ht, rfl⟩⟩)) (nextPc_delta hr)

end

/-- Settles O17: JNZ is taken where the condition is not 0. -/
theorem jnzExecutes : Obligations.JnzExecutes := by
  have taken {a : Int} (h : a ≠ 0) : (!isZero a) = true := by rw [isZero_eq_false.2 h, Bool.not_false]
  have notTaken {a : Int} (h : a = 0) : (!isZero a) = false := by rw [isZero_eq_true.2 h, Bool.not_true]
  refine fun m1 m2 m3 => ⟨by simp [encode_eq, Instr.opcode, Instr.modes, Mode.digit], rfl, fun s =>
    ⟨fun f hf => exec_jump_of_condition_error rfl hf, fun a f ha hf => exec_jump_of_target_error rfl ha hf,
      fun a b ha hb => ⟨fun h h0 => ?_, fun h h0 => ?_, fun h hr => ?_, fun h hr => ?_⟩⟩⟩
  · exact exec_jump_of_negative_target rfl ha hb (taken h) h0
  · exact exec_jump_taken rfl ha hb (taken h) h0
  · exact exec_jump_of_pc_range rfl ha hb (notTaken h) hr
  · exact exec_jump_not_taken rfl ha hb (notTaken h) hr

/-- Settles O18: JZ is taken where the condition is 0. -/
theorem jzExecutes : Obligations.JzExecutes := by
  refine fun m1 m2 m3 => ⟨by simp [encode_eq, Instr.opcode, Instr.modes, Mode.digit], rfl, fun s =>
    ⟨fun f hf => exec_jump_of_condition_error rfl hf, fun a f ha hf => exec_jump_of_target_error rfl ha hf,
      fun a b ha hb => ⟨fun h h0 => ?_, fun h h0 => ?_, fun h hr => ?_, fun h hr => ?_⟩⟩⟩
  · exact exec_jump_of_negative_target rfl ha hb (isZero_eq_true.2 h) h0
  · exact exec_jump_taken rfl ha hb (isZero_eq_true.2 h) h0
  · exact exec_jump_of_pc_range rfl ha hb (isZero_eq_false.2 h) hr
  · exact exec_jump_not_taken rfl ha hb (isZero_eq_false.2 h) hr

/-! ### IN, OUT and ARB: one parameter -/

/-- Settles O15: the target is resolved first; an empty queue commits a delta of 0, a value at the head is written and popped. -/
theorem inExecutes : Obligations.InExecutes := by
  refine fun m1 m2 m3 => ⟨by simp [encode_eq, Instr.opcode, Instr.modes, Mode.digit], rfl, fun s =>
    ⟨fun f hf => exec_of_error ?_, fun t ht hq hpc => ?_, fun t x rest ht hq => ?_⟩⟩
  · rw [evalOf, evalIn, hf, error_bind]
  · exact exec_of_ok (i := .inp m1 m2 m3) (evalIn_eq_ok.2 ⟨t, ht, .inl ⟨hq, rfl⟩⟩) (nextPc_delta_zero hpc)
  · have he : evalOf (.inp m1 m2 m3) s = .ok { write := some (t, x), pop := true, next := .delta 2 } :=
      evalIn_eq_ok.2 ⟨t, ht, .inr ⟨x, rest, hq, rfl⟩⟩
    refine ⟨exec_of_ok_of_not_inRange he rfl, fun hr => ?_⟩
    rw [exec_of_ok he (nextPc_delta hr)]
    simp only [commit, hq, if_true, List.tail_cons, Nat.cast_ofNat]

/-- Settles O16: the operand is emitted by the commit. -/
theorem outExecutes : Obligations.OutExecutes := by
  refine fun m1 m2 m3 => ⟨by simp [encode_eq, Instr.opcode, Instr.modes, Mode.digit], rfl, fun s =>
    ⟨fun f hf => exec_of_error ?_, fun a ha => ?_⟩⟩
  · rw [evalOf, evalOut, hf, error_bind]
  · have he : evalOf (.out m1 m2 m3) s = .ok { emit := some a, next := .delta 2 } := evalOut_eq_ok.2 ⟨a, ha, rfl⟩
    exact ⟨exec_of_ok_of_not_inRange he rfl, fun hr => exec_of_ok he (nextPc_delta hr)⟩

/-- Settles O21: the operand is read before the base moves, and the new base is checked. -/
theorem arbExecutes : Obligations.ArbExecutes := by
  refine fun m1 m2 m3 => ⟨by simp [encode_eq, Instr.opcode, Instr.modes, Mode.digit], rfl, fun s =>
    ⟨fun f hf => exec_of_error ?_, fun a ha => ?_⟩⟩
  · rw [evalOf, evalArb, hf, error_bind]
  · have he (hb : InRange (s.rb + a)) : evalOf (.arb m1 m2 m3) s = .ok { newRb := some (s.rb + a), next := .delta 2 } :=
      evalArb_eq_ok.2 ⟨a, ha, hb, rfl⟩
    refine ⟨fun hb => exec_of_error ?_, fun hb => exec_of_ok_of_not_inRange (he hb) rfl,
      fun hb hr => exec_of_ok (he hb) (nextPc_delta hr)⟩
    rw [evalOf, evalArb, ha, ok_bind, chk_of_not_inRange hb, error_bind]

end Sys2Proof.Machine
end

section
/-! SUPPORT. Steps and runs (40_engine_cycle.md R120 to R143): what a step executes, what `run(n)` counts and how runs compose,
the breakpoint and the suspended IN across steps, and the host's input (R135, R138). -/

namespace Sys2Proof.Machine

/-! ### What a step executes (R123, R124, R133) -/

/-- Where a step reaches step 3 of a cycle: on a RUNNING machine, or one resumed from WAITING_FOR_INPUT, without a breakpoint at
`pc`, and always from AT_BREAKPOINT. -/
def StepFetches (s : State) : Prop :=
  (s.status = .running ∧ s.pc ∉ s.bps) ∨ s.status = .atBreakpoint ∨
    (s.status = .waitingForInput ∧ s.inq ≠ [] ∧ s.pc ∉ s.bps)

theorem withStatus_self {s : State} {st : Status} (h : s.status = st) : { s with status := st } = s := by
  rw [← h]

theorem cycle_of_running {s : State} (hs : s.status = .running) (hb : s.pc ∉ s.bps) : cycle s = fetchExecute s := by
  rw [cycle, if_neg (fun h => hb h.1), clearLatch_running hs]

theorem step_eq_fetchExecute {s : State} (h : StepFetches s) : step s = fetchExecute { s with status := .running } := by
  rcases h with ⟨hs, hb⟩ | hs | ⟨hs, hq, hb⟩
  · rw [step_of_canCycle (.inl hs), cycle_of_running hs hb, withStatus_self hs]
  · rw [step_of_canCycle (.inr hs), cycle_of_atBreakpoint hs]
  · calc step s
      _ = runLoop 1 { s with status := .running } := run_succ_of_resume (resume_of_waiting_input hs hq) 0
      _ = cycle { s with status := .running } := runLoop_one _
      _ = fetchExecute { s with status := .running } := cycle_of_running rfl hb

theorem fetchExecute_of_not_legal {s : State} (h : ¬ Legal s.cfg s.pc) :
    fetchExecute s = .next (takeFault s (addressFault s.pc s.pc)) := by
  rw [fetchExecute, fetch, memRead_of_not_legal h]

theorem fetchExecute_of_decode_error {s : State} (hl : Legal s.cfg s.pc) {e : DecodeError}
    (hd : decode (s.mem.read s.pc.toNat) = .error e) :
    fetchExecute s = .next (takeFault s (unknownOpcodeFault s.pc (decodeReason e))) := by
  simp only [fetchExecute, fetch, memRead_of_legal hl, hd]

/-- Settles O25: the word at a legal `pc` is fetched, decoded and executed. -/
theorem stepRunsTheDecodedInstruction : Obligations.StepRunsTheDecodedInstruction := by
  intro s i h hl hd
  rw [step_eq_fetchExecute h]
  exact fetchExecute_of_decode (s := { s with status := .running }) (memRead_of_legal hl) hd

/-- Settles O26: the fetch fails, or the decoder rejects the word by name. -/
theorem illegalWordsFault : Obligations.IllegalWordsFault := by
  intro s h
  have hstep : step s = fetchExecute { s with status := .running } := step_eq_fetchExecute (h.imp_right .inl)
  obtain ⟨hnon, hop, -⟩ := decodeClassifiesEveryWord (s.mem.read s.pc.toNat)
  refine ⟨fun hl => ?_, fun hl => ⟨fun hw => ?_, fun op h0 h1 hmod hu => ?_⟩⟩
  · rw [hstep]
    exact fetchExecute_of_not_legal (s := { s with status := .running }) hl
  · rw [hstep]
    exact fetchExecute_of_decode_error (s := { s with status := .running }) hl (hnon.2 hw)
  · rw [hstep]
    exact fetchExecute_of_decode_error (s := { s with status := .running }) hl ((hop op).2 ⟨h0, h1, hmod, hu⟩)

/-! ### Breakpoints and suspensions across steps (R141, R133) -/

theorem step_of_breakpointHit {s : State} (hs : s.status = .running) (hb : s.pc ∈ s.bps) :
    step s = .next { s with status := .atBreakpoint } := by
  rw [step_of_canCycle (.inl hs)]
  exact cycle_of_breakpointHit ⟨hb, by simp [hs]⟩

/-- Settles O45: the check stops a RUNNING machine, the latch lets the next step pass, and no instruction writes the set. -/
theorem breakpointStopsOnceThenExecutes : Obligations.BreakpointStopsOnceThenExecutes := by
  intro s i hs hb hl hd
  refine ⟨step_of_breakpointHit hs hb, ?_, fun t ht hr hpc => step_of_breakpointHit hr ?_⟩
  · have h := stepRunsTheDecodedInstruction { s with status := .atBreakpoint } i (.inr (.inl rfl)) hl hd
    exact h.trans (congrArg (exec i) (withStatus_self hs))
  · rwa [hpc, exec_bps ht]

/-- A target does not depend on the status, the queue or the counter. -/
theorem writeAddress_withWait (s : State) (st : Status) (q : List Int) (c k : Nat) (m : Mode) :
    writeAddress { s with status := st, inq := q, cycles := c } k m = writeAddress s k m := by
  cases m <;> rfl

/-- Settles O46: the wait changes the status and the counter only, so the retried IN resolves the same target. -/
theorem suspendedInputResumes : Obligations.SuspendedInputResumes := by
  intro s m1 m2 m3 t v hs hb hq hl hd ht hpc hpc2 hv
  obtain ⟨-, -, hin⟩ := inExecutes m1 m2 m3
  obtain ⟨-, hwait, -⟩ := hin s
  refine ⟨{ s with status := .waitingForInput, cycles := s.cycles + 1 },
    { s with status := .waitingForInput, cycles := s.cycles + 1, inq := [v] }, ?_, rfl, ?_, ?_, ?_⟩
  · rw [stepRunsTheDecodedInstruction s _ (.inl ⟨hs, hb⟩) hl hd, withStatus_self hs]
    exact hwait t ht hq hpc
  · have hnone : resume { s with status := .waitingForInput, cycles := s.cycles + 1 } = none := resume_of_waiting_empty rfl hq
    exact (run_of_resume_none hnone).1 1
  · exact pushInput_eq_next.2 ⟨hv, by simp [hq]⟩
  · have hretry := stepRunsTheDecodedInstruction { s with status := .waitingForInput, cycles := s.cycles + 1, inq := [v] } _
      (.inr (.inr ⟨rfl, List.cons_ne_nil v [], hb⟩)) hl hd
    have htake := ((hin { s with status := .running, inq := [v], cycles := s.cycles + 1 }).2.2 t v []
      ((writeAddress_withWait ..).trans ht) rfl).2 hpc2
    rw [hretry, htake]
    simp [hs, hq]

/-! ### The budget of a run (R132, R142) -/

theorem ne_running_of_resume_none {s : State} (h : resume s = none) : s.status ≠ .running := by
  intro hs
  rw [resume_of_canCycle (.inl hs)] at h
  cases h

theorem run_of_canCycle {s : State} (h : CanCycle s) (n : Nat) : run n s = runLoop n s := by
  cases n with
  | zero => rfl
  | succ n => exact run_succ_of_resume (resume_of_canCycle h) n

/-- What a run with a budget can do: nothing, or the loop from the resumed machine. -/
theorem run_succ_cases {n : Nat} {s t : State} (h : run (n + 1) s = .next t) :
    (resume s = none ∧ t = s) ∨ ∃ u, resume s = some u ∧ runLoop (n + 1) u = .next t := by
  rw [run_succ] at h
  cases hu : resume s with
  | none => rw [hu] at h; cases h; exact .inl ⟨rfl, rfl⟩
  | some u => rw [hu] at h; exact .inr ⟨u, rfl, h⟩

/-- A cycle commits and is counted, or stops the machine and is not. -/
theorem cycle_cycles {s t : State} (hc : CanCycle s) (h : cycle s = .next t) :
    t.cycles = s.cycles + 1 ∨ (t.cycles = s.cycles ∧ t.status ≠ .running) := by
  rcases cycle_cases h with ⟨-, rfl⟩ | ⟨-, h⟩
  · exact .inr ⟨rfl, by simp⟩
  rw [clearLatch_of_canCycle hc] at h
  rcases fetchExecute_cases h with ⟨_, -, rfl⟩ | ⟨_, i, -, -, h⟩
  · exact .inr ⟨rfl, by simp⟩
  · rcases committedCyclesCountOnce i _ t (by simp) h with ⟨hf, hcyc⟩ | ⟨-, hcyc⟩
    · exact .inr ⟨hcyc, by simp [hf]⟩
    · exact .inl hcyc

theorem runLoop_budget {n : Nat} {s t : State} (hc : CanCycle s) (h : runLoop n s = .next t) :
    s.cycles ≤ t.cycles ∧ t.cycles ≤ s.cycles + n ∧ (t.status = .running → t.cycles = s.cycles + n) := by
  induction n generalizing s with
  | zero => cases h; exact ⟨le_rfl, le_rfl, fun _ => rfl⟩
  | succ n ih =>
    obtain ⟨u, hu⟩ := cycle_next s
    have hcount := cycle_cycles hc hu
    rw [runLoop_succ hu] at h
    split at h
    · rename_i hr
      have hu1 : u.cycles = s.cycles + 1 := hcount.resolve_right fun hn => hn.2 hr
      obtain ⟨hle, hbound, hexact⟩ := ih (.inl hr) h
      exact ⟨by omega, by omega, fun ht => by rw [hexact ht]; omega⟩
    · rename_i hr
      cases h
      exact ⟨by omega, by omega, fun ht => absurd ht hr⟩

/-- Settles O42, by induction on the budget. -/
theorem runBudgetIsExact : Obligations.RunBudgetIsExact := by
  intro n s t h
  cases n with
  | zero => cases h; exact ⟨le_rfl, le_rfl, fun _ => rfl⟩
  | succ n =>
    rcases run_succ_cases h with ⟨hn, rfl⟩ | ⟨u, hu, h⟩
    · exact ⟨le_rfl, Nat.le_add_right _ _, fun ht => absurd ht (ne_running_of_resume_none hn)⟩
    · have hbudget := runLoop_budget (resume_canCycle hu) h
      obtain ⟨_, rfl⟩ := resume_eq_withStatus hu
      exact hbudget

/-- A loop that has used its budget goes on with what is left. -/
theorem runLoop_add {n : Nat} (m : Nat) {s t : State} (h : runLoop n s = .next t) (ht : t.status = .running) :
    runLoop (n + m) s = runLoop m t := by
  induction n generalizing s with
  | zero => cases h; rw [Nat.zero_add]
  | succ n ih =>
    obtain ⟨u, hu⟩ := cycle_next s
    rw [runLoop_succ hu] at h
    rw [Nat.succ_add, runLoop_succ hu]
    split at h
    · rename_i hr; rw [if_pos hr, ih h]
    · rename_i hr; cases h; exact absurd ht hr

/-- Settles O43: the second run starts where the loop of the first ended. -/
theorem runsCompose : Obligations.RunsCompose := by
  intro n m s t h ht
  cases n with
  | zero => cases h; rw [Nat.zero_add]
  | succ n =>
    rcases run_succ_cases h with ⟨hn, rfl⟩ | ⟨u, hu, h⟩
    · exact absurd ht (ne_running_of_resume_none hn)
    · rw [run_of_canCycle (.inl ht), ← runLoop_add m h ht, Nat.add_right_comm]
      exact run_succ_of_resume hu (n + m)

/-- The loop without a budget ends where the loop with the first sufficient budget ends. -/
theorem loopToStop_eq_next {k : Nat} {s t : State} :
    loopToStop k s = .next t ↔ t.status ≠ .running ∧ ∃ j < k, runLoop (j + 1) s = .next t := by
  induction k generalizing s with
  | zero => simp [loopToStop]
  | succ k ih =>
    obtain ⟨u, hu⟩ := cycle_next s
    rw [loopToStop_succ hu]
    by_cases hr : u.status = .running
    · rw [if_pos hr, ih]
      refine and_congr_right fun ht => ⟨fun ⟨j, hj, h⟩ => ⟨j + 1, by omega, ?_⟩, fun ⟨j, hj, h⟩ => ?_⟩
      · rw [runLoop_succ hu, if_pos hr, h]
      · rw [runLoop_succ hu, if_pos hr] at h
        cases j with
        | zero => cases h; exact absurd hr ht
        | succ j => exact ⟨j, by omega, h⟩
    · rw [if_neg hr]
      refine ⟨?_, fun ⟨_, j, _, h⟩ => ?_⟩
      · rintro ⟨⟩
        exact ⟨hr, 0, by omega, by rw [runLoop_succ hu, if_neg hr]⟩
      · rwa [runLoop_succ hu, if_neg hr] at h

/-- Settles O44, by induction on the fuel where a loop starts. -/
theorem runToStopIsTheFirstBudgetThatStops : Obligations.RunToStopIsTheFirstBudgetThatStops := by
  intro fuel s t
  cases hu : resume s with
  | none =>
    obtain ⟨hrun, hstop⟩ := run_of_resume_none hu
    rw [hstop]
    refine ⟨?_, fun ⟨_, n, _, _, h⟩ => by rwa [hrun] at h⟩
    rintro ⟨⟩
    exact ⟨ne_running_of_resume_none hu, 1, le_rfl, Nat.succ_pos fuel, hrun 1⟩
  | some u =>
    rw [runToStop_of_resume hu, loopToStop_eq_next]
    refine and_congr_right fun _ => ⟨fun ⟨j, hj, h⟩ => ⟨j + 1, by omega, by omega, ?_⟩, fun ⟨n, h1, hn, h⟩ => ?_⟩
    · rw [run_succ_of_resume hu, h]
    · obtain ⟨j, rfl⟩ := Nat.exists_eq_add_of_le' h1
      exact ⟨j, by omega, by rwa [run_succ_of_resume hu] at h⟩

/-! ### The host's input (R135, R138) -/

/-- Settles O48: a word is appended, and `provide_input_and_run` leaves the wait and runs; any other value is refused. -/
theorem inputOperations : Obligations.InputOperations := by
  refine fun v s => ⟨fun hv => pushInput_eq_next.2 ⟨hv, rfl⟩, fun hv fuel hs => ?_, fun hv fuel hs => ?_,
    fun hv => ⟨if_neg hv, fun _ => if_neg hv⟩⟩
  · rw [provideInputAndRun, if_pos hv, provideInput, if_pos hs]
  · rw [provideInputAndRun, if_pos hv, provideInput_of_ne_waiting hs]

end Sys2Proof.Machine
end
